-- ==== Sys2Proof/Word.lean ====
section
/-! DEFINITION. The two bit-vector types of the machine: an 8-bit byte (rule R6) and a 64-bit register
(rules R6, R20). Popped and pushed values, sizes and capacities are natural numbers (rules R8, R9). -/

namespace Sys2Proof

/-- One byte of an arena or of the instruction stream: 8 bits (rule R6). PRESUMED (log entry 13). -/
abbrev Byte := BitVec 8

/-- The contents of `pc`, `fp` or `sp`: 64 bits, arithmetic modulo 2^64 (rules R10, R20, R56). -/
abbrev Word := BitVec 64

end Sys2Proof
end

