-- ==== Sys2Proof/Machine/Descriptor.lean ====
section
/-! DEFINITION. The operand descriptor decoder: validity and fields of a descriptor byte (rules R84, R85,
R110 to R112, R115). -/

namespace Sys2Proof

/-- The triple `(Size, Signed, Indirect)` a valid descriptor byte decodes to (rule R113). -/
structure Descr where
  /-- Width in bytes, one of 1, 2, 4, 8. -/
  size : Nat
  /-- The value is signed. -/
  signed : Bool
  /-- The operand is a frame slot named by an offset on the stack. -/
  indirect : Bool
  deriving DecidableEq, Repr

/-- `Valid(b)` (rule R110): bits 7:6 are zero and the width nibble is 1, 2, 4 or 8. -/
def validDescr (b : Byte) : Bool :=
  b.extractLsb' 6 2 == 0 &&
    (b.extractLsb' 0 4 == 1 || b.extractLsb' 0 4 == 2 || b.extractLsb' 0 4 == 4 || b.extractLsb' 0 4 == 8)

/-- `Size(d) = d[3:0]` (rule R111). -/
def descrSize (d : Byte) : Nat := (d.extractLsb' 0 4).toNat

/-- `Signed(d)`: bit 4 (rule R112). -/
def descrSigned (d : Byte) : Bool := d.getLsbD 4

/-- `Indirect(d)`: bit 5 (rule R112). -/
def descrIndirect (d : Byte) : Bool := d.getLsbD 5

/-- The three fields of a descriptor byte (rules R111, R112). -/
def descrFields (d : Byte) : Descr := ⟨descrSize d, descrSigned d, descrIndirect d⟩

/-- `SameType`: equal width and signedness, the addressing mode taking no part (rule R115). -/
def sameType (t1 t2 : Descr) : Bool := t1.size == t2.size && t1.signed == t2.signed

/-- How many immediate bytes follow a PUSH descriptor: `Size(d)` for a valid one (rule R86), none for an
invalid one, whose PUSH faults before the immediate is fetched (rule R234). DEDUCED (log entry 5). -/
def immLength (d : Byte) : Nat := if validDescr d then descrSize d else 0

end Sys2Proof
end

