-- ==== Sys2Proof/Machine/Bits.lean ====
section
/-! DEFINITION. Byte order and the signed reading of a value: little-endian assembly (rules R11, R50, R51)
and the helpers of rule R9. A value of `w` bytes is a number below `2^(8w)`. -/

namespace Sys2Proof

/-- The number a byte string stands for, least significant byte first (rules R11, R50). -/
def leValue : List Byte → Nat
  | [] => 0
  | b :: bs => b.toNat + 256 * leValue bs

/-- The low `n` bytes of `v`, least significant byte first (rules R11, R50). -/
def leBytes : Nat → Nat → List Byte
  | 0, _ => []
  | n + 1, v => BitVec.ofNat 8 v :: leBytes n (v / 256)

/-- `2^(8w)`, one past the largest value of `w` bytes (rule R8). -/
def modulus (w : Nat) : Nat := 2 ^ (8 * w)

/-- The sign bit, bit `8w - 1`, of a value of `w` bytes (rule R8). -/
def signBit (w v : Nat) : Bool := v.testBit (8 * w - 1)

/-- `sval_w(v)`, the two's-complement reading of a value of `w` bytes (rule R9). -/
def sval (w v : Nat) : Int := if signBit w v then (v : Int) - (modulus w : Int) else (v : Int)

/-- `sext_64(v)` when the `w`-byte source is signed and negative, else `zext_64(v)` (rules R9, R171). -/
def extend64 (w : Nat) (signed : Bool) (v : Nat) : Nat :=
  if signed && signBit w v then v + (modulus 8 - modulus w) else v

end Sys2Proof
end

