-- ==== Sys2Proof/Config.lean ====
section
/-! DEFINITION. The implementation parameters of rule R7: the arena capacities, the device window and
`OPCODE_MAP`, as plain data, with the reference configuration REF and the constraints a configuration
must meet. The machine's state carries one `Config` that nothing but the host's choice of machine sets,
so that every statement about states is a statement for every configuration (log entry 1). -/

namespace Sys2Proof

/-- The 30 mnemonics, in the order of the opcode table (rule R90): 25 implemented, then the 5 reserved. -/
inductive Mnemonic where
  | halt | ecall | push | pop | assign
  | add | sub | and | or | xor | mul
  | shl | shr
  | eql | neq | lss | gtr | leq | geq
  | convert
  | jump | branch | call | ret
  | storeString
  | load | store | quo | rem | jumpNoflag
  deriving DecidableEq, Repr

/-- `OPCODE_MAP` (rules R7, R89): the opcode byte of each mnemonic. -/
structure OpcodeMap where
  halt : Byte
  ecall : Byte
  push : Byte
  pop : Byte
  assign : Byte
  add : Byte
  sub : Byte
  and : Byte
  or : Byte
  xor : Byte
  mul : Byte
  shl : Byte
  shr : Byte
  eql : Byte
  neq : Byte
  lss : Byte
  gtr : Byte
  leq : Byte
  geq : Byte
  convert : Byte
  jump : Byte
  branch : Byte
  call : Byte
  ret : Byte
  storeString : Byte
  load : Byte
  store : Byte
  quo : Byte
  rem : Byte
  jumpNoflag : Byte
  deriving DecidableEq, Repr

/-- The opcode bytes of a map, in table order. -/
def OpcodeMap.toList (o : OpcodeMap) : List Byte :=
  [o.halt, o.ecall, o.push, o.pop, o.assign, o.add, o.sub, o.and, o.or, o.xor, o.mul, o.shl, o.shr,
   o.eql, o.neq, o.lss, o.gtr, o.leq, o.geq, o.convert, o.jump, o.branch, o.call, o.ret,
   o.storeString, o.load, o.store, o.quo, o.rem, o.jumpNoflag]

/-- The default `OPCODE_MAP` (rule R90). -/
def OpcodeMap.default : OpcodeMap where
  halt := 0x01
  ecall := 0x02
  push := 0x03
  pop := 0x04
  assign := 0x05
  add := 0x06
  sub := 0x07
  and := 0x08
  or := 0x09
  xor := 0x0A
  mul := 0x0B
  shl := 0x0C
  shr := 0x0D
  eql := 0x0E
  neq := 0x0F
  lss := 0x10
  gtr := 0x11
  leq := 0x12
  geq := 0x13
  convert := 0x14
  jump := 0x15
  branch := 0x16
  call := 0x17
  ret := 0x18
  storeString := 0x19
  load := 0x1A
  store := 0x1B
  quo := 0x1C
  rem := 0x1D
  jumpNoflag := 0x1E

/-- The parameters of rule R7. -/
structure Config where
  /-- `ISTORE_SIZE`, the capacity of the instruction store `I` in bytes. -/
  istoreSize : Nat
  /-- `STACK_SIZE`, the capacity of the stack arena `S` in bytes. -/
  stackSize : Nat
  /-- `MEM_SIZE`, the capacity of general memory `M` in bytes. -/
  memSize : Nat
  /-- `DEV_BASE`, the first address of the device window in `M`. -/
  devBase : Nat
  /-- `DEV_LIMIT`, one past the last address of the device window in `M`. -/
  devLimit : Nat
  /-- `OPCODE_MAP`. -/
  opcodes : OpcodeMap
  deriving DecidableEq, Repr

/-- The reference configuration REF (rule R7) with the default opcode map (rule R90). -/
def Config.ref : Config where
  istoreSize := 0x10000
  stackSize := 0x10000
  memSize := 0x100000
  devBase := 0xFFF00
  devLimit := 0x100000
  opcodes := OpcodeMap.default

/-- The constraints of rule R7: capacities from 1 to below 2^63, a non-empty window inside `M`, and an
injective opcode map. -/
abbrev Config.WF (c : Config) : Prop :=
  1 ≤ c.istoreSize ∧ c.istoreSize < 2 ^ 63 ∧
  1 ≤ c.stackSize ∧ c.stackSize < 2 ^ 63 ∧
  1 ≤ c.memSize ∧ c.memSize < 2 ^ 63 ∧
  c.devBase < c.devLimit ∧ c.devLimit ≤ c.memSize ∧
  c.opcodes.toList.Nodup

end Sys2Proof
end

