-- ==== Sys2Proof/Machine/State.lean ====
section
/-! DEFINITION. The whole machine state of rules R20 to R33 as plain data, the reasons a step of the host's
interface could stop, and the state after reset. -/

namespace Sys2Proof.Machine

/-- Nothing raises one: every fault of the spec is an exception entry that leaves a described state (rule
R236: `status` Illegal, `err` set, all else as before), so the step answers that next state (log entry 2).
Having no constructor is safe: no step can stop where the spec goes on. -/
inductive Fault where
  deriving DecidableEq, Repr

/-- A step with no meaning. -/
inductive Refusal where
  /-- Raised by an arm of `exec` for an instruction with no meaning in this model; no arm does. Safe: the
  machine stops instead of guessing. -/
  | notModelled (mnemonic : String)
  deriving DecidableEq, Repr

/-- The six error kinds (rule R230). -/
inductive ErrorKind where
  /-- A malformed descriptor byte (rule R233). -/
  | invalidDescriptor
  /-- An unknown opcode, a type mismatch or a misused descriptor (rule R232). -/
  | invalidInstruction
  /-- An access outside an arena or the device window (rule R231). -/
  | outOfBounds
  /-- A `load` of an image longer than the instruction store (rule R263); never raised by a step. -/
  | bytecodeTooLarge
  /-- A signed shift count with its sign bit set (rule R235). -/
  | negativeShiftCount
  /-- A reserved opcode was executed (rules R220, R235). -/
  | unimplementedInstruction
  deriving DecidableEq, Repr

/-- The run state (rule R24), an enumeration as decision D4 allows (log entry 12). -/
inductive Status where
  /-- The next step executes an instruction. -/
  | running
  /-- HALT was executed; final. -/
  | halted
  /-- ECALL was executed; waiting for the host. -/
  | trapped
  /-- A fault was raised; final. -/
  | illegal
  deriving DecidableEq, Repr

/-- A byte arena as the cells that are not zero, addresses strictly rising (`Memory.wf`). An address that is
not listed reads as zero, the reset contents of every arena (rules R33, R261). DEDUCED (log entry 6). -/
abbrev Memory := List Host.Cell

/-- The machine (rules R20 to R30). -/
structure State where
  /-- The parameters of this machine (rule R7); the model's own field, written by no step (log entry 1). -/
  cfg : Config
  /-- Program counter, an offset into `I` (rule R23). -/
  pc : Word
  /-- Frame pointer, an offset into `S` (rule R21). -/
  fp : Word
  /-- Stack pointer, the first free byte of `S` (rule R22). -/
  sp : Word
  /-- Machine status (rule R24). -/
  status : Status
  /-- Error cause (rule R25); `none` is the spec's value None. -/
  err : Option ErrorKind
  /-- `I`, the instruction store (rule R28). -/
  istore : Memory
  /-- `S`, the stack arena (rule R29). -/
  stack : Memory
  /-- `M`, general memory with the device window (rules R30, R31). -/
  mem : Memory
  deriving DecidableEq, Repr

/-- The state after reset (rules R33, R260, R261): the reset of this machine is a `load`, here of the empty
image into the reference configuration, so that no program is in `I` (log entry 3). -/
def State.reset : State where
  cfg := Config.ref
  pc := 0
  fp := 0
  sp := 0
  status := .running
  err := none
  istore := []
  stack := []
  mem := []

/-- `pc <- v` (rule R10). -/
def State.withPc (s : State) (v : Word) : State := { s with pc := v }

/-- `fp <- v` (rule R10). -/
def State.withFp (s : State) (v : Word) : State := { s with fp := v }

/-- `sp <- v` (rule R10). -/
def State.withSp (s : State) (v : Word) : State := { s with sp := v }

/-- `status <- v` (rule R10). -/
def State.withStatus (s : State) (v : Status) : State := { s with status := v }

/-- `err <- v` (rule R10). -/
def State.withErr (s : State) (v : Option ErrorKind) : State := { s with err := v }

/-- The state with another instruction store; only the host's load does this (rule R28). -/
def State.withIstore (s : State) (m : Memory) : State := { s with istore := m }

/-- The state with another stack arena. -/
def State.withStack (s : State) (m : Memory) : State := { s with stack := m }

/-- The state with another general memory. -/
def State.withMem (s : State) (m : Memory) : State := { s with mem := m }

end Sys2Proof.Machine
end

