-- ==== Sys2Proof/Machine/Ops.lean ====
section
/-! DEFINITION. The operations every instruction is built from: the three arenas (rules R11, R28 to R32,
R50, R55), taking a fault (rules R12, R236), taking the trap and returning from it (rules R240, R241), and
the moves of `pc` (rules R23, R180). -/

namespace Sys2Proof.Machine

/-! ### One arena -/

/-- The byte at address `a`: zero where no cell is listed (rules R33, R261). -/
def Memory.getByte : Memory → Nat → Byte
  | [], _ => 0
  | (k, v) :: rest, a => if a = k then v else Memory.getByte rest a

/-- The arena with byte `b` at address `a`, kept in canonical form: a zero is not listed. -/
def Memory.setByte : Memory → Nat → Byte → Memory
  | [], a, b => if b = 0 then [] else [(a, b)]
  | (k, v) :: rest, a, b =>
    if a < k then (if b = 0 then (k, v) :: rest else (a, b) :: (k, v) :: rest)
    else if a = k then (if b = 0 then rest else (a, b) :: rest)
    else (k, v) :: Memory.setByte rest a b

/-- The `n` bytes from address `a` on, in address order. -/
def Memory.readBytes (m : Memory) (a : Nat) : Nat → List Byte
  | 0 => []
  | n + 1 => m.getByte a :: m.readBytes (a + 1) n

/-- The arena with the bytes written from address `a` on, in address order. -/
def Memory.writeBytes (m : Memory) (a : Nat) : List Byte → Memory
  | [] => m
  | b :: bs => Memory.writeBytes (m.setByte a b) (a + 1) bs

/-- The `n`-byte little-endian number at address `a` (rules R11, R50). -/
def Memory.readLE (m : Memory) (a n : Nat) : Nat := leValue (m.readBytes a n)

/-- The cells have strictly rising addresses from `lo` on and none of them is zero. -/
def Memory.wfFrom (lo : Nat) : Memory → Bool
  | [] => true
  | (k, v) :: rest => decide (lo ≤ k) && (v != 0) && Memory.wfFrom (k + 1) rest

/-- The canonical form: addresses strictly rising, no cell zero. Equal contents are equal lists. -/
def Memory.wf (m : Memory) : Bool := m.wfFrom 0

/-- Every listed address is below `n`. -/
def Memory.below (m : Memory) (n : Nat) : Bool := m.all fun c => decide (c.1 < n)

/-- The arena that holds `bytes` from address `a` on and zero elsewhere (rule R262). -/
def Memory.ofBytes : Nat → List Byte → Memory
  | _, [] => []
  | a, b :: bs => if b = 0 then Memory.ofBytes (a + 1) bs else (a, b) :: Memory.ofBytes (a + 1) bs

/-! ### The three address spaces -/

/-- The three disjoint address spaces (rules R11, R32). -/
inductive Space where
  /-- `I`, the instruction store. -/
  | istore
  /-- `S`, the stack arena. -/
  | stack
  /-- `M`, general memory. -/
  | mem
  deriving DecidableEq, Repr

/-- The contents of a space. -/
def State.arena (s : State) : Space → Memory
  | .istore => s.istore
  | .stack => s.stack
  | .mem => s.mem

/-- `SIZE(X)` (rule R11). -/
def State.capacity (s : State) : Space → Nat
  | .istore => s.cfg.istoreSize
  | .stack => s.cfg.stackSize
  | .mem => s.cfg.memSize

/-- The state with other contents in a space. -/
def State.withArena (s : State) (m : Memory) : Space → State
  | .istore => s.withIstore m
  | .stack => s.withStack m
  | .mem => s.withMem m

/-- `require C else K` (rule R12). -/
def require (c : Bool) (k : ErrorKind) : Except ErrorKind Unit :=
  if c then .ok () else .error k

/-- `MemRead(X, addr, n)` (rules R11, R55). -/
def memRead (x : Space) (addr : Word) (n : Nat) (s : State) : Except ErrorKind Nat :=
  if addr.toNat + n ≤ s.capacity x then .ok ((s.arena x).readLE addr.toNat n) else .error .outOfBounds

/-- A run of single-byte `MemWrite`s, all inside the arena or none (rules R11, R12, R55). -/
def storeBytes (x : Space) (addr : Word) (bytes : List Byte) (s : State) : Except ErrorKind State :=
  if addr.toNat + bytes.length ≤ s.capacity x then
    .ok (s.withArena ((s.arena x).writeBytes addr.toNat bytes) x)
  else .error .outOfBounds

/-- `MemWrite(X, addr, n, v)` (rules R11, R55). -/
def memWrite (x : Space) (addr : Word) (n v : Nat) (s : State) : Except ErrorKind State :=
  storeBytes x addr (leBytes n v) s

/-! ### Moves of the program counter -/

/-- `pc <- (pc + k) mod 2^64` (rule R23). -/
def State.advance (s : State) (k : Nat) : State := s.withPc (s.pc + BitVec.ofNat 64 k)

/-- `pc <- (pc + off) mod 2^64`, from the address of the transferring opcode (rule R180). -/
def State.jumpBy (s : State) (off : Nat) : State := s.withPc (s.pc + BitVec.ofNat 64 off)

/-! ### Faults and the trap -/

/-- The effect of `raise K`: `status` becomes Illegal, `err` becomes K, everything else is as it was before
the step began (rule R236). `s` is the state before the step. -/
def takeFault (k : ErrorKind) (s : State) : State := (s.withStatus .illegal).withErr (some k)

/-- The entry of the one trap: `status` becomes Trapped and `pc` passes the ECALL byte (rules R201, R240). -/
def takeTrap (s : State) : State := (s.withStatus .trapped).advance 1

/-- The return from the trap, the host's `resume` event (rules R207, R241): Trapped becomes Running, any
other status holds. -/
def resume (s : State) : State :=
  match s.status with
  | .trapped => s.withStatus .running
  | .running | .halted | .illegal => s

/-- The end of an instruction begun in state `s`: its next state, or the fault it raised, which discards
what it had already done (rules R12, R236). -/
def settle (s : State) (r : Except ErrorKind State) : Host.Outcome State Fault Refusal :=
  match r with
  | .ok t => .next t
  | .error k => .next (takeFault k s)

end Sys2Proof.Machine
end

