-- ==== Sys2Proof/Machine/Operands.lean ====
section
/-! DEFINITION. Value transport (rules R113 to R121): decoding an operand's descriptor, popping raw bytes,
popping a typed operand in either addressing mode, pushing a value, and the operand phases the
two-descriptor instructions share. -/

namespace Sys2Proof.Machine

/-- `Decode(d)` (rule R113). -/
def decodeDescr (d : Byte) : Except ErrorKind Descr :=
  if validDescr d then .ok (descrFields d) else .error .invalidDescriptor

/-- `Decode(d1)` then `Decode(d2)` (rules R114, R121). -/
def decodePair (d1 d2 : Byte) : Except ErrorKind (Descr × Descr) := do
  let t1 ← decodeDescr d1
  let t2 ← decodeDescr d2
  pure (t1, t2)

/-- `PopRaw(n)` (rule R116). -/
def popRaw (n : Nat) (s : State) : Except ErrorKind (Nat × State) := do
  require (decide (n ≤ s.sp.toNat)) .outOfBounds
  let v ← memRead .stack (s.sp - BitVec.ofNat 64 n) n s
  pure (v, s.withSp (s.sp - BitVec.ofNat 64 n))

/-- The frame address `(fp + off) mod 2^64` (rule R56). -/
def frameAddr (s : State) (off : Nat) : Word := s.fp + BitVec.ofNat 64 off

/-- `PopValue(d)` for a decoded descriptor (rule R117): a direct operand is popped; an indirect one pops an
8-byte frame offset and is read from its slot, which is not consumed. -/
def popValue (t : Descr) (s : State) : Except ErrorKind (Nat × State) :=
  if t.indirect then do
    let (off, s1) ← popRaw 8 s
    let v ← memRead .stack (frameAddr s1 off) t.size s1
    pure (v, s1)
  else popRaw t.size s

/-- `PushValue(w, v)` (rule R118). -/
def pushValue (w v : Nat) (s : State) : Except ErrorKind State := do
  let s1 ← memWrite .stack s.sp w v s
  pure (s1.withSp (s.sp + BitVec.ofNat 64 w))

/-- The operands of `OP d1 d2`, right-hand operand popped first (rule R119): `a`, `b` and the state after
both pops. -/
def popOperands (t1 t2 : Descr) (s : State) : Except ErrorKind (Nat × Nat × State) := do
  let (b, s1) ← popValue t2 s
  let (a, s2) ← popValue t1 s1
  pure (a, b, s2)

/-- The fixed descriptor of STORE_STRING, 8-byte unsigned indirect, the byte `0x28` (rule R202). -/
def addressDescr : Descr := descrFields 0x28#8

end Sys2Proof.Machine
end

