-- ==== Sys2Proof/Machine/Arithmetic.lean ====
section
/-! DEFINITION. ADD, SUB, AND, OR, XOR and MUL (rules R140 to R147): one template and one function each. -/

namespace Sys2Proof.Machine

/-- `F_ADD` (rule R141). -/
def addValue (w a b : Nat) : Nat := (a + b) % modulus w

/-- `F_SUB`: `a` plus the two's-complement negation of `b` (rule R142). -/
def subValue (w a b : Nat) : Nat := (a + (modulus w - b) % modulus w) % modulus w

/-- `F_AND` (rule R143). -/
def andValue (_ a b : Nat) : Nat := a &&& b

/-- `F_OR` (rule R144). -/
def orValue (_ a b : Nat) : Nat := a ||| b

/-- `F_XOR` (rule R145). -/
def xorValue (_ a b : Nat) : Nat := a ^^^ b

/-- `F_MUL`: the low half of the product (rule R146). -/
def mulValue (w a b : Nat) : Nat := (a * b) % modulus w

/-- The common template of rule R140, `f` taking the width, `a` and `b`. -/
def arithmetic (f : Nat → Nat → Nat → Nat) (d1 d2 : Byte) (s : State) : Except ErrorKind State := do
  let (t1, t2) ← decodePair d1 d2
  require (sameType t1 t2) .invalidInstruction
  let (a, b, s1) ← popOperands t1 t2 s
  let s2 ← pushValue t1.size (f t1.size a b) s1
  pure (s2.advance 3)

/-- ADD `d1 d2` (rule R141). -/
def execAdd (d1 d2 : Byte) (s : State) : Host.Outcome State Fault Refusal :=
  settle s (arithmetic addValue d1 d2 s)

/-- SUB `d1 d2` (rule R142). -/
def execSub (d1 d2 : Byte) (s : State) : Host.Outcome State Fault Refusal :=
  settle s (arithmetic subValue d1 d2 s)

/-- AND `d1 d2` (rule R143). -/
def execAnd (d1 d2 : Byte) (s : State) : Host.Outcome State Fault Refusal :=
  settle s (arithmetic andValue d1 d2 s)

/-- OR `d1 d2` (rule R144). -/
def execOr (d1 d2 : Byte) (s : State) : Host.Outcome State Fault Refusal :=
  settle s (arithmetic orValue d1 d2 s)

/-- XOR `d1 d2` (rule R145). -/
def execXor (d1 d2 : Byte) (s : State) : Host.Outcome State Fault Refusal :=
  settle s (arithmetic xorValue d1 d2 s)

/-- MUL `d1 d2` (rule R146). -/
def execMul (d1 d2 : Byte) (s : State) : Host.Outcome State Fault Refusal :=
  settle s (arithmetic mulValue d1 d2 s)

end Sys2Proof.Machine
end

