-- ==== Sys2Proof/Machine/Flags.lean ====
section
/-! DEFINITION. The machine has no status flags (rule R26): an arithmetic instruction records no carry,
overflow, zero or sign anywhere. What stands in their place is the truth value of a comparison, computed
here (rules R161 to R168) and pushed as a byte, and BRANCH's test of a popped value for zero (rule R183). -/

namespace Sys2Proof.Machine

/-- `Less(x, y, w, sg)`, sign bit first and raw order where the sign bits agree (rule R168). -/
def less (w : Nat) (signed : Bool) (x y : Nat) : Bool :=
  if signed && signBit w x && !signBit w y then true
  else if signed && !signBit w x && signBit w y then false
  else decide (x < y)

/-- `REL_EQL` (rule R162). -/
def relEql (_ : Nat) (_ : Bool) (a b : Nat) : Bool := decide (a = b)

/-- `REL_NEQ` (rule R163). -/
def relNeq (_ : Nat) (_ : Bool) (a b : Nat) : Bool := !decide (a = b)

/-- `REL_LSS` (rule R164). -/
def relLss (w : Nat) (signed : Bool) (a b : Nat) : Bool := less w signed a b

/-- `REL_GTR` (rule R165). -/
def relGtr (w : Nat) (signed : Bool) (a b : Nat) : Bool := less w signed b a

/-- `REL_LEQ` (rule R166). -/
def relLeq (w : Nat) (signed : Bool) (a b : Nat) : Bool := !less w signed b a

/-- `REL_GEQ` (rule R167). -/
def relGeq (w : Nat) (signed : Bool) (a b : Nat) : Bool := !less w signed a b

/-- The result byte of a comparison: 1 for true, 0 for false (rule R161). -/
def truthByte (t : Bool) : Nat := if t then 1 else 0

end Sys2Proof.Machine
end

