-- ==== Sys2Proof/Machine/Compare.lean ====
section
/-! DEFINITION. EQL, NEQ, LSS, GTR, LEQ and GEQ (rules R160 to R169). -/

namespace Sys2Proof.Machine

/-- The common template of rule R160, `rel` taking the width, the signedness, `a` and `b`. -/
def comparison (rel : Nat → Bool → Nat → Nat → Bool) (d1 d2 : Byte) (s : State) :
    Except ErrorKind State := do
  let (t1, t2) ← decodePair d1 d2
  require (sameType t1 t2) .invalidInstruction
  let (a, b, s1) ← popOperands t1 t2 s
  let s2 ← pushValue 1 (truthByte (rel t1.size t1.signed a b)) s1
  pure (s2.advance 3)

/-- EQL `d1 d2` (rule R162). -/
def execEql (d1 d2 : Byte) (s : State) : Host.Outcome State Fault Refusal :=
  settle s (comparison relEql d1 d2 s)

/-- NEQ `d1 d2` (rule R163). -/
def execNeq (d1 d2 : Byte) (s : State) : Host.Outcome State Fault Refusal :=
  settle s (comparison relNeq d1 d2 s)

/-- LSS `d1 d2` (rule R164). -/
def execLss (d1 d2 : Byte) (s : State) : Host.Outcome State Fault Refusal :=
  settle s (comparison relLss d1 d2 s)

/-- GTR `d1 d2` (rule R165). -/
def execGtr (d1 d2 : Byte) (s : State) : Host.Outcome State Fault Refusal :=
  settle s (comparison relGtr d1 d2 s)

/-- LEQ `d1 d2` (rule R166). -/
def execLeq (d1 d2 : Byte) (s : State) : Host.Outcome State Fault Refusal :=
  settle s (comparison relLeq d1 d2 s)

/-- GEQ `d1 d2` (rule R167). -/
def execGeq (d1 d2 : Byte) (s : State) : Host.Outcome State Fault Refusal :=
  settle s (comparison relGeq d1 d2 s)

end Sys2Proof.Machine
end

