-- ==== Sys2Proof/Machine/Control.lean ====
section
/-! DEFINITION. JUMP, BRANCH, CALL and RETURN, and the frame the last two keep (rules R180 to R190). -/

namespace Sys2Proof.Machine

/-- JUMP (rule R181). -/
def execJump (s : State) : Host.Outcome State Fault Refusal :=
  settle s do
    let (off, s1) ← popRaw 8 s
    pure (s1.jumpBy off)

/-- BRANCH `d` (rules R183, R184): the displacement is popped first, then the condition; taken on zero. -/
def execBranch (d : Byte) (s : State) : Host.Outcome State Fault Refusal :=
  settle s do
    let t ← decodeDescr d
    let (off, s1) ← popRaw 8 s
    let (c, s2) ← popValue t s1
    pure (if c = 0 then s2.jumpBy off else s2.advance 2)

/-- CALL (rule R185): the two linkage words are pushed, the frame opened, `pc` moved. -/
def execCall (s : State) : Host.Outcome State Fault Refusal :=
  settle s do
    let (off, s1) ← popRaw 8 s
    let s2 ← pushValue 8 s.fp.toNat s1
    let s3 ← pushValue 8 (s.pc + 1).toNat s2
    pure ((s3.withFp s3.sp).jumpBy off)

/-- RETURN's operand: null for `0x00`, else a descriptor (rule R186). -/
def decodeReturn (d : Byte) : Except ErrorKind (Option Descr) :=
  if d = 0 then .ok none else (decodeDescr d).map some

/-- RETURN's stack move once `a` is popped (rule R186): the payload, if any, is read before `sp` moves and
pushed at the new `sp`. -/
def returnStack (t : Option Descr) (a : Nat) (s : State) : Except ErrorKind State :=
  match t with
  | none => .ok (s.withSp (BitVec.ofNat 64 a + s.fp))
  | some t => do
    let (v, s1) ← popValue t s
    pushValue t.size v (s1.withSp (BitVec.ofNat 64 a + s.fp))

/-- RETURN `d` (rule R186): the linkage words are read before the payload moves. -/
def execReturn (d : Byte) (s : State) : Host.Outcome State Fault Refusal :=
  settle s do
    let t ← decodeReturn d
    let (a, s1) ← popRaw 8 s
    let rpc ← memRead .stack (s.fp - 8) 8 s1
    let rfp ← memRead .stack (s.fp - 16) 8 s1
    let s2 ← returnStack t a s1
    pure ((s2.withPc (BitVec.ofNat 64 rpc)).withFp (BitVec.ofNat 64 rfp))

end Sys2Proof.Machine
end

