-- ==== Sys2Proof/Machine/Convert.lean ====
section
/-! DEFINITION. CONVERT (rules R170 to R172). -/

namespace Sys2Proof.Machine

/-- CONVERT `d1 d2` (rule R171): `d1` describes the source, `d2`, which must be direct, the width pushed. -/
def execConvert (d1 d2 : Byte) (s : State) : Host.Outcome State Fault Refusal :=
  settle s do
    let (t1, t2) ← decodePair d1 d2
    require (!t2.indirect) .invalidInstruction
    let (a, s1) ← popValue t1 s
    let s2 ← pushValue t2.size (extend64 t1.size t1.signed a) s1
    pure (s2.advance 3)

end Sys2Proof.Machine
end

