-- ==== Sys2Proof/Machine/Reserved.lean ====
section
/-! DEFINITION. The five reserved opcodes (rules R220 to R225): each is recognised and takes the fault
UnimplementedInstruction; nothing is fetched, popped or moved. -/

namespace Sys2Proof.Machine

/-- The common rule R220. -/
def unimplemented (s : State) : Host.Outcome State Fault Refusal :=
  settle s (.error .unimplementedInstruction)

/-- LOAD (rule R221). -/
def execLoad (s : State) : Host.Outcome State Fault Refusal := unimplemented s

/-- STORE (rule R222). -/
def execStore (s : State) : Host.Outcome State Fault Refusal := unimplemented s

/-- QUO (rule R223). -/
def execQuo (s : State) : Host.Outcome State Fault Refusal := unimplemented s

/-- REM (rule R224). -/
def execRem (s : State) : Host.Outcome State Fault Refusal := unimplemented s

/-- JUMP_NOFLAG (rule R225). -/
def execJumpNoflag (s : State) : Host.Outcome State Fault Refusal := unimplemented s

end Sys2Proof.Machine
end

