-- ==== Sys2Proof/Machine/Shift.lean ====
section
/-! DEFINITION. SHL and SHR (rules R150 to R153). The count is never reduced; counts at and beyond the width
take the closed forms that rules R151 and R152 derive, so that no huge power of two is formed (DEDUCED, log
entry 11). -/

namespace Sys2Proof.Machine

/-- `F_SHL` (rule R151). -/
def shlValue (w : Nat) (_ : Bool) (a b : Nat) : Nat :=
  if 8 * w ≤ b then 0 else (a * 2 ^ b) % modulus w

/-- `F_SHR` (rule R152): arithmetic for a signed negative `a`, else logical. -/
def shrValue (w : Nat) (signed : Bool) (a b : Nat) : Nat :=
  if signed && signBit w a then
    if 8 * w - 1 ≤ b then modulus w - 1 else ((sval w a / 2 ^ b) % (modulus w : Int)).toNat
  else if 8 * w ≤ b then 0
  else a / 2 ^ b

/-- The common template of rule R150: no type match, and a signed count with its sign bit set is refused
after both pops. `f` takes the width and signedness of `d1`, `a` and the count `b`. -/
def shift (f : Nat → Bool → Nat → Nat → Nat) (d1 d2 : Byte) (s : State) : Except ErrorKind State := do
  let (t1, t2) ← decodePair d1 d2
  let (a, b, s1) ← popOperands t1 t2 s
  require (!(t2.signed && signBit t2.size b)) .negativeShiftCount
  let s2 ← pushValue t1.size (f t1.size t1.signed a b) s1
  pure (s2.advance 3)

/-- SHL `d1 d2` (rule R151). -/
def execShl (d1 d2 : Byte) (s : State) : Host.Outcome State Fault Refusal :=
  settle s (shift shlValue d1 d2 s)

/-- SHR `d1 d2` (rule R152). -/
def execShr (d1 d2 : Byte) (s : State) : Host.Outcome State Fault Refusal :=
  settle s (shift shrValue d1 d2 s)

end Sys2Proof.Machine
end

