-- ==== Sys2Proof/Machine/StackData.lean ====
section
/-! DEFINITION. PUSH, POP and ASSIGN (rules R130, R131, R133). -/

namespace Sys2Proof.Machine

/-- PUSH `d` (rule R130); `signed` and `indirect` are ignored (rule R93). -/
def execPush (d : Byte) (imm : Nat) (s : State) : Host.Outcome State Fault Refusal :=
  settle s do
    let t ← decodeDescr d
    let s1 ← pushValue t.size imm s
    pure (s1.advance (2 + t.size))

/-- POP `d` (rule R131), direct only. -/
def execPop (d : Byte) (s : State) : Host.Outcome State Fault Refusal :=
  settle s do
    let t ← decodeDescr d
    require (!t.indirect) .invalidInstruction
    let (_, s1) ← popRaw t.size s
    pure (s1.advance 2)

/-- ASSIGN `d1 d2` (rule R133): the payload is popped first, then the destination's frame offset. -/
def execAssign (d1 d2 : Byte) (s : State) : Host.Outcome State Fault Refusal :=
  settle s do
    let (t1, t2) ← decodePair d1 d2
    require (sameType t1 t2) .invalidInstruction
    require t1.indirect .invalidInstruction
    let (v, s1) ← popValue t2 s
    let (off, s2) ← popRaw 8 s1
    let s3 ← memWrite .stack (frameAddr s2 off) t1.size v s2
    pure (s3.advance 3)

end Sys2Proof.Machine
end

