-- ==== Sys2Proof/Machine/System.lean ====
section
/-! DEFINITION. HALT, ECALL and STORE_STRING (rules R200 to R207). -/

namespace Sys2Proof.Machine

/-- HALT (rule R200). -/
def execHalt (s : State) : Host.Outcome State Fault Refusal :=
  .next ((s.withStatus .halted).advance 1)

/-- ECALL (rules R201, R240): it takes the trap. -/
def execEcall (s : State) : Host.Outcome State Fault Refusal :=
  .next (takeTrap s)

/-- The whole destination `A .. A + n - 1` lies in the device window (rule R203, `A` a full 64-bit number and
the sum unbounded). -/
def inWindow (c : Config) (a n : Nat) : Bool := decide (c.devBase ≤ a) && decide (a + n ≤ c.devLimit)

/-- STORE_STRING (rules R202, R203): the target address comes from the frame slot that the offset on the
stack names; the literal and its terminator are copied into the device window or nothing is. The literal was
fetched before the pop; which of the two fails first cannot be seen (DEDUCED, log entry 4). -/
def execStoreString (literal : List Byte) (s : State) : Host.Outcome State Fault Refusal :=
  settle s do
    let (a, s1) ← popValue addressDescr s
    require (inWindow s.cfg a (literal.length + 1)) .outOfBounds
    let s2 ← storeBytes .mem (BitVec.ofNat 64 a) (literal ++ [0]) s1
    pure (s2.advance (2 + literal.length))

end Sys2Proof.Machine
end

