-- ==== Sys2Proof/Syntax.lean ====
section
/-! DEFINITION. The instructions: one constructor per row of the opcode table (rules R82, R90). Operand
bytes are kept as they stand in the instruction stream, because the opcode byte alone selects the
instruction (rule R81) and an invalid descriptor is the executing instruction's own fault (rules R113,
R114). DEDUCED (log entry 14). -/

namespace Sys2Proof

/-- An instruction with its encoded operands (rule R82). `d`, `d1`, `d2` are descriptor bytes. -/
inductive Instr where
  /-- HALT (rule R200). -/
  | halt
  /-- ECALL (rule R201). -/
  | ecall
  /-- PUSH `d` with its immediate, the number the `Size(d)` immediate bytes stand for (rules R86, R130). -/
  | push (d : Byte) (imm : Nat)
  /-- POP `d` (rule R131). -/
  | pop (d : Byte)
  /-- ASSIGN `d1 d2` (rule R133). -/
  | assign (d1 d2 : Byte)
  /-- ADD `d1 d2` (rule R141). -/
  | add (d1 d2 : Byte)
  /-- SUB `d1 d2` (rule R142). -/
  | sub (d1 d2 : Byte)
  /-- AND `d1 d2` (rule R143). -/
  | and (d1 d2 : Byte)
  /-- OR `d1 d2` (rule R144). -/
  | or (d1 d2 : Byte)
  /-- XOR `d1 d2` (rule R145). -/
  | xor (d1 d2 : Byte)
  /-- MUL `d1 d2` (rule R146). -/
  | mul (d1 d2 : Byte)
  /-- SHL `d1 d2` (rule R151). -/
  | shl (d1 d2 : Byte)
  /-- SHR `d1 d2` (rule R152). -/
  | shr (d1 d2 : Byte)
  /-- EQL `d1 d2` (rule R162). -/
  | eql (d1 d2 : Byte)
  /-- NEQ `d1 d2` (rule R163). -/
  | neq (d1 d2 : Byte)
  /-- LSS `d1 d2` (rule R164). -/
  | lss (d1 d2 : Byte)
  /-- GTR `d1 d2` (rule R165). -/
  | gtr (d1 d2 : Byte)
  /-- LEQ `d1 d2` (rule R166). -/
  | leq (d1 d2 : Byte)
  /-- GEQ `d1 d2` (rule R167). -/
  | geq (d1 d2 : Byte)
  /-- CONVERT `d1 d2` (rule R171). -/
  | convert (d1 d2 : Byte)
  /-- JUMP (rule R181). -/
  | jump
  /-- BRANCH `d` (rule R183). -/
  | branch (d : Byte)
  /-- CALL (rule R185). -/
  | call
  /-- RETURN `d`, with `0x00` for the null operand (rule R186). -/
  | ret (d : Byte)
  /-- STORE_STRING with its literal, the terminating zero byte left out (rules R88, R203). -/
  | storeString (literal : List Byte)
  /-- LOAD, reserved (rule R221). -/
  | load
  /-- STORE, reserved (rule R222). -/
  | store
  /-- QUO, reserved (rule R223). -/
  | quo
  /-- REM, reserved (rule R224). -/
  | rem
  /-- JUMP_NOFLAG, reserved (rule R225). -/
  | jumpNoflag
  deriving DecidableEq, Repr

end Sys2Proof
end

