-- ==== Sys2Proof/Machine/Dispatch.lean ====
section
/-! DEFINITION. The effect of one instruction (rule R81): one arm per constructor, each one call of the
instruction's own meaning. -/

namespace Sys2Proof.Machine

def exec (i : Instr) (s : State) : Host.Outcome State Fault Refusal :=
  match i with
  | .halt => Sys2Proof.Machine.execHalt s
  | .ecall => Sys2Proof.Machine.execEcall s
  | .push d imm => Sys2Proof.Machine.execPush d imm s
  | .pop d => Sys2Proof.Machine.execPop d s
  | .assign d1 d2 => Sys2Proof.Machine.execAssign d1 d2 s
  | .add d1 d2 => Sys2Proof.Machine.execAdd d1 d2 s
  | .sub d1 d2 => Sys2Proof.Machine.execSub d1 d2 s
  | .and d1 d2 => Sys2Proof.Machine.execAnd d1 d2 s
  | .or d1 d2 => Sys2Proof.Machine.execOr d1 d2 s
  | .xor d1 d2 => Sys2Proof.Machine.execXor d1 d2 s
  | .mul d1 d2 => Sys2Proof.Machine.execMul d1 d2 s
  | .shl d1 d2 => Sys2Proof.Machine.execShl d1 d2 s
  | .shr d1 d2 => Sys2Proof.Machine.execShr d1 d2 s
  | .eql d1 d2 => Sys2Proof.Machine.execEql d1 d2 s
  | .neq d1 d2 => Sys2Proof.Machine.execNeq d1 d2 s
  | .lss d1 d2 => Sys2Proof.Machine.execLss d1 d2 s
  | .gtr d1 d2 => Sys2Proof.Machine.execGtr d1 d2 s
  | .leq d1 d2 => Sys2Proof.Machine.execLeq d1 d2 s
  | .geq d1 d2 => Sys2Proof.Machine.execGeq d1 d2 s
  | .convert d1 d2 => Sys2Proof.Machine.execConvert d1 d2 s
  | .jump => Sys2Proof.Machine.execJump s
  | .branch d => Sys2Proof.Machine.execBranch d s
  | .call => Sys2Proof.Machine.execCall s
  | .ret d => Sys2Proof.Machine.execReturn d s
  | .storeString literal => Sys2Proof.Machine.execStoreString literal s
  | .load => Sys2Proof.Machine.execLoad s
  | .store => Sys2Proof.Machine.execStore s
  | .quo => Sys2Proof.Machine.execQuo s
  | .rem => Sys2Proof.Machine.execRem s
  | .jumpNoflag => Sys2Proof.Machine.execJumpNoflag s

end Sys2Proof.Machine
end

