-- ==== Sys2Proof/WellFormed.lean ====
section
/-! DEFINITION. Two checks on an instruction. `Instr.wellFormed` says that its operands fit its encoding
(rules R82, R86, R88): exactly the terms the decoder can give. `Instr.staticallyValid` is the program's
obligation of rule R266 (c): every descriptor valid, every pair meeting its instruction's static
requirements. -/

namespace Sys2Proof

/-- The operands fit the encoding: a PUSH immediate has at most the bytes its descriptor gives it (rule
R86), and a STORE_STRING literal holds no zero byte before its terminator (rule R88). Every byte is a
possible descriptor byte, so no other operand is restricted. -/
def Instr.wellFormed : Instr → Bool
  | .push d imm => decide (imm < modulus (immLength d))
  | .storeString literal => literal.all (· != 0)
  | .halt | .ecall | .pop _ | .assign _ _ | .add _ _ | .sub _ _ | .and _ _ | .or _ _ | .xor _ _
  | .mul _ _ | .shl _ _ | .shr _ _ | .eql _ _ | .neq _ _ | .lss _ _ | .gtr _ _ | .leq _ _ | .geq _ _
  | .convert _ _ | .jump | .branch _ | .call | .ret _ | .load | .store | .quo | .rem
  | .jumpNoflag => true

/-- Both descriptors are valid and have the same type (rule R115). -/
def matchingPair (d1 d2 : Byte) : Bool :=
  validDescr d1 && validDescr d2 && sameType (descrFields d1) (descrFields d2)

/-- The static requirements of rule R266 (c): valid descriptors (rule R110), POP direct (rule R131), ASSIGN
with an indirect `d1` (rule R133), matching types where rule R115 asks for them, CONVERT with a direct `d2`
(rule R170), RETURN's operand null or valid (rule R186), and no reserved opcode (rule R220). -/
def Instr.staticallyValid : Instr → Bool
  | .push d _ => validDescr d
  | .pop d => validDescr d && !descrIndirect d
  | .assign d1 d2 => matchingPair d1 d2 && descrIndirect d1
  | .add d1 d2 | .sub d1 d2 | .and d1 d2 | .or d1 d2 | .xor d1 d2 | .mul d1 d2 => matchingPair d1 d2
  | .shl d1 d2 | .shr d1 d2 => validDescr d1 && validDescr d2
  | .eql d1 d2 | .neq d1 d2 | .lss d1 d2 | .gtr d1 d2 | .leq d1 d2 | .geq d1 d2 => matchingPair d1 d2
  | .convert d1 d2 => validDescr d1 && validDescr d2 && !descrIndirect d2
  | .branch d => validDescr d
  | .ret d => d == 0 || validDescr d
  | .halt | .ecall | .jump | .call | .storeString _ => true
  | .load | .store | .quo | .rem | .jumpNoflag => false

end Sys2Proof
end

