-- ==== Sys2Proof/Decode.lean ====
section
/-! DEFINITION. The decoder, relative to an `OPCODE_MAP` (rules R80 to R83, R86, R88), and after it the
encoder written from the same formats. The decoder asks for the byte `k` places after the opcode byte, as
`Fetch(k)` does (rule R13), and answers an instruction or one of two named errors. -/

namespace Sys2Proof

/-- Why bytes are no instruction. -/
inductive DecodeError where
  /-- A byte the instruction needs is not there: raised by a step as OutOfBounds (rule R231 (a), (b)). -/
  | truncated
  /-- The opcode byte is no mnemonic's: raised by a step as InvalidInstruction (rules R81, R91). -/
  | unknownOpcode
  deriving DecidableEq, Repr

/-- `OPCODE_MAP(m)` (rules R81, R90). -/
def OpcodeMap.code (o : OpcodeMap) : Mnemonic → Byte
  | .halt => o.halt
  | .ecall => o.ecall
  | .push => o.push
  | .pop => o.pop
  | .assign => o.assign
  | .add => o.add
  | .sub => o.sub
  | .and => o.and
  | .or => o.or
  | .xor => o.xor
  | .mul => o.mul
  | .shl => o.shl
  | .shr => o.shr
  | .eql => o.eql
  | .neq => o.neq
  | .lss => o.lss
  | .gtr => o.gtr
  | .leq => o.leq
  | .geq => o.geq
  | .convert => o.convert
  | .jump => o.jump
  | .branch => o.branch
  | .call => o.call
  | .ret => o.ret
  | .storeString => o.storeString
  | .load => o.load
  | .store => o.store
  | .quo => o.quo
  | .rem => o.rem
  | .jumpNoflag => o.jumpNoflag

/-- Every mnemonic, in table order (rule R90). -/
def Mnemonic.all : List Mnemonic :=
  [.halt, .ecall, .push, .pop, .assign, .add, .sub, .and, .or, .xor, .mul, .shl, .shr, .eql, .neq, .lss,
   .gtr, .leq, .geq, .convert, .jump, .branch, .call, .ret, .storeString, .load, .store, .quo, .rem,
   .jumpNoflag]

/-- The mnemonic whose opcode byte is `b`, if there is one (rule R81). In a map that is not injective, which
rule R7 forbids, the first of the table wins (DESIGN CHOICE, log entry 10). -/
def OpcodeMap.lookup (o : OpcodeMap) (b : Byte) : Option Mnemonic :=
  Mnemonic.all.find? (fun m => o.code m == b)

/-- The `n` bytes from the one `k` places after the opcode on, or none if one of them is missing. -/
def fetchBytes (fetch : Nat → Option Byte) (k : Nat) : Nat → Option (List Byte)
  | 0 => some []
  | n + 1 =>
    match fetch k, fetchBytes fetch (k + 1) n with
    | some b, some bs => some (b :: bs)
    | _, _ => none

/-- The literal that starts `k` places after the opcode, up to its first zero byte and without it (rule
R88), or none if no zero byte is met in `fuel` bytes. -/
def fetchLiteral (fetch : Nat → Option Byte) : Nat → Nat → Option (List Byte)
  | 0, _ => none
  | fuel + 1, k =>
    match fetch k with
    | none => none
    | some b => if b == 0 then some [] else (fetchLiteral fetch fuel (k + 1)).map (b :: ·)

/-- Format `D` and `R`: one operand byte (rule R82). -/
def fetchOne (fetch : Nat → Option Byte) (make : Byte → Instr) : Option Instr :=
  (fetch 1).map make

/-- Format `DD`: `d1` then `d2` (rules R80, R82). -/
def fetchTwo (fetch : Nat → Option Byte) (make : Byte → Byte → Instr) : Option Instr :=
  match fetch 1, fetch 2 with
  | some d1, some d2 => some (make d1 d2)
  | _, _ => none

/-- Format `DI`: a descriptor and its little-endian immediate (rules R82, R86). -/
def fetchPush (fetch : Nat → Option Byte) : Option Instr :=
  match fetch 1 with
  | none => none
  | some d => (fetchBytes fetch 2 (immLength d)).map fun bs => .push d (leValue bs)

/-- The instruction of mnemonic `m` with its operand bytes (rule R82), or none if one is missing. The
reserved opcodes have no operand bytes (rule R220). -/
def decodeOperands (fetch : Nat → Option Byte) (fuel : Nat) : Mnemonic → Option Instr
  | .halt => some .halt
  | .ecall => some .ecall
  | .push => fetchPush fetch
  | .pop => fetchOne fetch .pop
  | .assign => fetchTwo fetch .assign
  | .add => fetchTwo fetch .add
  | .sub => fetchTwo fetch .sub
  | .and => fetchTwo fetch .and
  | .or => fetchTwo fetch .or
  | .xor => fetchTwo fetch .xor
  | .mul => fetchTwo fetch .mul
  | .shl => fetchTwo fetch .shl
  | .shr => fetchTwo fetch .shr
  | .eql => fetchTwo fetch .eql
  | .neq => fetchTwo fetch .neq
  | .lss => fetchTwo fetch .lss
  | .gtr => fetchTwo fetch .gtr
  | .leq => fetchTwo fetch .leq
  | .geq => fetchTwo fetch .geq
  | .convert => fetchTwo fetch .convert
  | .jump => some .jump
  | .branch => fetchOne fetch .branch
  | .call => some .call
  | .ret => fetchOne fetch .ret
  | .storeString => (fetchLiteral fetch fuel 1).map .storeString
  | .load => some .load
  | .store => some .store
  | .quo => some .quo
  | .rem => some .rem
  | .jumpNoflag => some .jumpNoflag

/-- Decode of one instruction from the bytes `fetch` gives, its literal at most `fuel` bytes long (rule
R81). -/
def decodeFrom (o : OpcodeMap) (fetch : Nat → Option Byte) (fuel : Nat) : Except DecodeError Instr :=
  match fetch 0 with
  | none => .error .truncated
  | some op =>
    match o.lookup op with
    | none => .error .unknownOpcode
    | some m =>
      match decodeOperands fetch fuel m with
      | none => .error .truncated
      | some i => .ok i

/-- Decode of the instruction at the head of a byte string. -/
def decode (o : OpcodeMap) (bytes : List Byte) : Except DecodeError Instr :=
  decodeFrom o (fun k => bytes[k]?) bytes.length

/-- The mnemonic of an instruction. -/
def Instr.mnemonic : Instr → Mnemonic
  | .halt => .halt
  | .ecall => .ecall
  | .push _ _ => .push
  | .pop _ => .pop
  | .assign _ _ => .assign
  | .add _ _ => .add
  | .sub _ _ => .sub
  | .and _ _ => .and
  | .or _ _ => .or
  | .xor _ _ => .xor
  | .mul _ _ => .mul
  | .shl _ _ => .shl
  | .shr _ _ => .shr
  | .eql _ _ => .eql
  | .neq _ _ => .neq
  | .lss _ _ => .lss
  | .gtr _ _ => .gtr
  | .leq _ _ => .leq
  | .geq _ _ => .geq
  | .convert _ _ => .convert
  | .jump => .jump
  | .branch _ => .branch
  | .call => .call
  | .ret _ => .ret
  | .storeString _ => .storeString
  | .load => .load
  | .store => .store
  | .quo => .quo
  | .rem => .rem
  | .jumpNoflag => .jumpNoflag

/-- The operand bytes of an instruction, after its opcode byte (rule R82). -/
def encodeOperands : Instr → List Byte
  | .push d imm => d :: leBytes (immLength d) imm
  | .pop d | .branch d | .ret d => [d]
  | .assign d1 d2 | .add d1 d2 | .sub d1 d2 | .and d1 d2 | .or d1 d2 | .xor d1 d2 | .mul d1 d2
  | .shl d1 d2 | .shr d1 d2 | .eql d1 d2 | .neq d1 d2 | .lss d1 d2 | .gtr d1 d2 | .leq d1 d2
  | .geq d1 d2 | .convert d1 d2 => [d1, d2]
  | .storeString literal => literal ++ [0]
  | .halt | .ecall | .jump | .call | .load | .store | .quo | .rem | .jumpNoflag => []

/-- The bytes of an instruction, opcode byte first (rules R80, R82). -/
def encode (o : OpcodeMap) (i : Instr) : List Byte :=
  o.code i.mnemonic :: encodeOperands i

/-- `len`, the encoded length in bytes (rule R82). -/
def Instr.length : Instr → Nat
  | .halt | .ecall | .jump | .call | .load | .store | .quo | .rem | .jumpNoflag => 1
  | .pop _ | .branch _ | .ret _ => 2
  | .assign _ _ | .add _ _ | .sub _ _ | .and _ _ | .or _ _ | .xor _ _ | .mul _ _ | .shl _ _ | .shr _ _
  | .eql _ _ | .neq _ _ | .lss _ _ | .gtr _ _ | .leq _ _ | .geq _ _ | .convert _ _ => 3
  | .push d _ => 2 + immLength d
  | .storeString literal => 2 + literal.length

/-- The bytes of the table word `w` of `nbits` bits, its first byte the least significant, then zero bytes
up to the longest instruction of fixed format, 10 bytes (rule R82). -/
def tableBytes (nbits w : Nat) : List Byte :=
  leBytes ((nbits + 7) / 8) w ++ List.replicate 10 0

/-- The instruction the decoder reads from a table word, under the table's own opcode numbers (rule R90). -/
def decodeTableWord (nbits w : Nat) : Option Instr :=
  match decode OpcodeMap.default (tableBytes nbits w) with
  | .ok i => some i
  | .error _ => none

end Sys2Proof
end

