-- ==== Sys2Proof/Machine/Fetch.lean ====
section
/-! DEFINITION. Fetching the instruction at `pc` from `I` (rules R13, R51, R81), and placing an instruction's
bytes there, which stands for the host's load of a program (rule R262, log entry 3). -/

namespace Sys2Proof.Machine

/-- `Fetch(k)`: the byte of `I` at `(pc + k) mod 2^64`, or none beyond the store (rules R13, R55). -/
def fetchByte (s : State) (k : Nat) : Option Byte :=
  if (s.pc + BitVec.ofNat 64 k).toNat + 1 ≤ s.cfg.istoreSize then
    some (s.istore.getByte (s.pc + BitVec.ofNat 64 k).toNat)
  else none

/-- The fault a step raises when the bytes at `pc` are no instruction (rules R231 (a) (b), R232 (a)). -/
def decodeFault : DecodeError → ErrorKind
  | .truncated => .outOfBounds
  | .unknownOpcode => .invalidInstruction

/-- The instruction at `pc`, or the fault its fetch raises (rule R81). A literal cannot be longer than the
store. -/
def fetchInstr (s : State) : Except ErrorKind Instr :=
  match decodeFrom s.cfg.opcodes (fetchByte s) s.cfg.istoreSize with
  | .ok i => .ok i
  | .error e => .error (decodeFault e)

/-- The state with `bytes` in `I` from `pc` on, ready to run: what `I` cannot hold is left out, and a stopped
machine is set Running, since a fetch happens in no other status (rule R37). -/
def placeAtPc (bytes : List Byte) (s : State) : State :=
  ((s.withIstore (s.istore.writeBytes s.pc.toNat (bytes.take (s.cfg.istoreSize - s.pc.toNat)))).withStatus
    .running).withErr none

end Sys2Proof.Machine
end

