-- ==== Sys2Proof/Machine/Step.lean ====
section
/-! DEFINITION. One step (rules R37, R81): a stopped machine holds; a running one fetches the instruction at
`pc` and executes it, or takes the fault of the fetch. -/

namespace Sys2Proof.Machine

/-- The host's `step` event (rule R37). It is `step`, not `exec`, that holds a stopped machine (DEDUCED, log
entry 8). -/
def step (s : State) : Host.Outcome State Fault Refusal :=
  match s.status with
  | .running =>
    match fetchInstr s with
    | .ok i => exec i s
    | .error k => .next (takeFault k s)
  | .halted | .trapped | .illegal => .next s

/-- `s` with a table word's bytes where `step` fetches its next instruction (log entry 3). -/
def State.withFetchWord (s : State) (nbits w : Nat) : State := placeAtPc (tableBytes nbits w) s

end Sys2Proof.Machine
end

