-- ==== Sys2Proof/Machine/Boundary.lean ====
section
/-! DEFINITION. The host's side of the boundary (rules R36, R207, R260 to R264, R267): the events `load`,
`step` and `resume`, the levels `status` and `err` as the host sees them, and the two queries. `step` itself
is Machine/Step.lean, `resume` Machine/Ops.lean. -/

namespace Sys2Proof.Machine

/-- `load(image)`, which is the reset (rules R260 to R263): the image verbatim at address 0 of `I` and all
else zero, or, for an image longer than the store, a machine stopped with BytecodeTooLarge and nothing of
the image stored. -/
def load (c : Config) (image : List Byte) : State :=
  if image.length ≤ c.istoreSize then
    ⟨c, 0, 0, 0, .running, none, Memory.ofBytes 0 image, [], []⟩
  else ⟨c, 0, 0, 0, .illegal, some .bytecodeTooLarge, [], [], []⟩

/-- The two-bit level `status` (rule R24). -/
def statusCode : Status → BitVec 2
  | .running => 0
  | .halted => 1
  | .trapped => 2
  | .illegal => 3

/-- The three-bit level `err` (rules R25, R230). -/
def errCode : Option ErrorKind → BitVec 3
  | none => 0
  | some .invalidDescriptor => 1
  | some .invalidInstruction => 2
  | some .outOfBounds => 3
  | some .bytecodeTooLarge => 4
  | some .negativeShiftCount => 5
  | some .unimplementedInstruction => 6

/-- The answer to a query of one byte: meaningful only while the machine is not Running (rules R36, R267 (f))
and only inside the arena; elsewhere the model gives no answer. DESIGN CHOICE (log entry 9). -/
def query (x : Space) (a : Nat) (s : State) : Option Byte :=
  if s.status = .running then none
  else if a < s.capacity x then some ((s.arena x).getByte a) else none

/-- `mem_read(A)` (rule R36). -/
def memQuery (a : Nat) (s : State) : Option Byte := query .mem a s

/-- `stack_read(A)` (rule R36). -/
def stackQuery (a : Nat) (s : State) : Option Byte := query .stack a s

/-- The bytes the host reads from address `a` on, up to the first zero byte, at most `fuel` of them. -/
def hostReads (s : State) : Nat → Nat → List Byte
  | 0, _ => []
  | fuel + 1, a =>
    match memQuery a s with
    | none => []
    | some b => if b = 0 then [] else b :: hostReads s fuel (a + 1)

/-- The string the host reads on a trap, from `DEV_BASE` on and never past the window (rule R207). -/
def hostString (s : State) : List Byte := hostReads s (s.cfg.devLimit - s.cfg.devBase) s.cfg.devBase

/-- The events of the boundary (rule R36). -/
inductive HostEvent where
  /-- Load an image: the reset. -/
  | load (image : List Byte)
  /-- Execute one instruction if Running. -/
  | step
  /-- Leave Trapped. -/
  | resume
  deriving DecidableEq, Repr

/-- The state after one event; a load keeps the machine's parameters (rule R7). DESIGN CHOICE (log
entry 7). -/
def deliver (s : State) : HostEvent → State
  | .load image => load s.cfg image
  | .step =>
    match step s with
    | .next t => t
    | .fault _ => s
    | .refused _ => s
  | .resume => resume s

/-- The state after a sequence of events, which never overlap (rule R36). -/
def deliverAll (s : State) (events : List HostEvent) : State := events.foldl deliver s

end Sys2Proof.Machine
end

