-- ==== Sys2Proof/Safety.lean ====
section
/-! DEFINITION. What counts as a safe run (rule R237), the invariant every step keeps, and the words the
claims are written in: where an operand lies, when it can be read, and what an instruction that writes one
stretch of the stack arena does and leaves. -/

namespace Sys2Proof.Machine

/-- A run has gone wrong when a fault was raised (rule R237). -/
abbrev GoneWrong (s : State) : Prop := s.status = .illegal

/-- The invariant of the machine. -/
structure State.Inv (s : State) : Prop where
  /-- The parameters meet the constraints of rule R7. -/
  cfg : s.cfg.WF
  /-- `I` is in canonical form. -/
  istoreWf : s.istore.wf
  /-- `I` lists no address at or beyond its capacity (rule R28). -/
  istoreBelow : s.istore.below s.cfg.istoreSize
  /-- `S` is in canonical form. -/
  stackWf : s.stack.wf
  /-- `S` lists no address at or beyond its capacity (rule R29). -/
  stackBelow : s.stack.below s.cfg.stackSize
  /-- `M` is in canonical form. -/
  memWf : s.mem.wf
  /-- `M` lists no address outside the device window (rules R30, R204). -/
  memWindow : s.mem.all fun c => decide (s.cfg.devBase ≤ c.1) && decide (c.1 < s.cfg.devLimit)
  /-- The last byte of the window is zero, so the host's read ends inside it (rule R207). -/
  lastZero : s.mem.getByte (s.cfg.devLimit - 1) = 0
  /-- `err` is None exactly when the machine is not Illegal (rule R25). -/
  errNone : s.err = none ↔ s.status ≠ .illegal

/-- How many stack bytes an operand takes: its own width, or its 8-byte frame offset (rules R117, R120). -/
def operandBytes (t : Descr) : Nat := if t.indirect then 8 else t.size

/-- The stack pointer below an operand whose bytes end at `p`. -/
def belowOperand (t : Descr) (p : Word) : Word := p - BitVec.ofNat 64 (operandBytes t)

/-- Where an operand's value lies, its stack bytes ending at `p`: there itself, or in the frame slot its
offset names (rule R117). -/
def operandAddr (t : Descr) (s : State) (p : Word) : Word :=
  if t.indirect then frameAddr s (s.stack.readLE (belowOperand t p).toNat 8) else belowOperand t p

/-- The operand whose stack bytes end at `p` can be read: no underflow, `p` inside the arena, its value
inside the arena (rules R55, R116, R117). -/
abbrev OperandReady (t : Descr) (s : State) (p : Word) : Prop :=
  operandBytes t ≤ p.toNat ∧ p.toNat ≤ s.cfg.stackSize ∧
    (operandAddr t s p).toNat + t.size ≤ s.cfg.stackSize

/-- The value of the operand whose stack bytes end at `p` (rule R117). -/
def operandValue (t : Descr) (s : State) (p : Word) : Nat :=
  s.stack.readLE (operandAddr t s p).toNat t.size

/-- An 8-byte number lies on top of the stack (rule R87). -/
abbrev OffsetReady (s : State) (p : Word) : Prop := 8 ≤ p.toNat ∧ p.toNat ≤ s.cfg.stackSize

/-- The 8-byte number whose bytes end at `p` (rule R87). -/
def offsetValue (s : State) (p : Word) : Nat := s.stack.readLE (p - 8).toNat 8

/-- The right-hand operand `b` of `OP d1 d2`, on top of the stack (rule R119). -/
def rightValue (d2 : Byte) (s : State) : Nat := operandValue (descrFields d2) s s.sp

/-- The left-hand operand `a` of `OP d1 d2`, below `b` (rule R119). -/
def leftValue (d1 d2 : Byte) (s : State) : Nat :=
  operandValue (descrFields d1) s (belowOperand (descrFields d2) s.sp)

/-- `sp` after both operands of `OP d1 d2` are popped: where the result goes (rule R120). -/
def resultAddr (d1 d2 : Byte) (s : State) : Word :=
  belowOperand (descrFields d1) (belowOperand (descrFields d2) s.sp)

/-- Both descriptors are valid and both operands can be read. -/
structure PairReady (d1 d2 : Byte) (s : State) : Prop where
  /-- `d1` is valid (rule R110). -/
  valid1 : validDescr d1
  /-- `d2` is valid (rule R110). -/
  valid2 : validDescr d2
  /-- `b` can be read. -/
  right : OperandReady (descrFields d2) s s.sp
  /-- `a` can be read. -/
  left : OperandReady (descrFields d1) s (belowOperand (descrFields d2) s.sp)

/-- `t` is `s` with the three registers given, with `bytes` in `S` from `lo` on, and with nothing else
changed: no other byte of `S`, no byte of `I` or `M`, no status, no error, no parameter. -/
structure StackEffect (s t : State) (pc sp fp : Word) (lo : Nat) (bytes : List Byte) : Prop where
  /-- The new program counter. -/
  pc : t.pc = pc
  /-- The new stack pointer. -/
  sp : t.sp = sp
  /-- The new frame pointer. -/
  fp : t.fp = fp
  /-- The stored bytes. -/
  written : t.stack.readBytes lo bytes.length = bytes
  /-- Every other byte of `S`. -/
  kept : ∀ a, a < lo ∨ lo + bytes.length ≤ a → t.stack.getByte a = s.stack.getByte a
  /-- Every byte of `I`. -/
  istore : t.istore = s.istore
  /-- Every byte of `M`. -/
  mem : t.mem = s.mem
  /-- The status. -/
  status : t.status = s.status
  /-- The error cause. -/
  err : t.err = s.err
  /-- The parameters. -/
  cfg : t.cfg = s.cfg

end Sys2Proof.Machine
end

