-- ==== Sys2Proof/Certificates/Slice0/Obligations.lean ====
section
/-! DEFINITION. The statements for the provers. A statement that an instruction completes gives its next state
field by field: `StackEffect` (Safety.lean) says the three registers, the bytes stored, and that nothing else
changed. A fault is the next state of rule R236. -/

namespace Sys2Proof.Machine

/-- Executing `i` in `s` takes the fault `k` and changes nothing but `status` and `err` (rule R236). -/
def Raises (i : Instr) (s : State) (k : ErrorKind) : Prop :=
  exec i s = .next { s with status := .illegal, err := some k }

/-- Executing the two-operand instruction `i` in `s` stores `bytes` where the operands of `d1 d2` were, moves
`sp` past them and `pc` past the instruction's three bytes, and changes nothing else. -/
def PairPushes (i : Instr) (d1 d2 : Byte) (s : State) (bytes : List Byte) : Prop :=
  ∃ t, exec i s = .next t ∧
    StackEffect s t (s.pc + 3) (resultAddr d1 d2 s + BitVec.ofNat 64 bytes.length) s.fp
      (resultAddr d1 d2 s).toNat bytes

/-- The number a value of type `d` stands for: two's complement if `d` is signed (rules R9, R168). -/
def reading (d : Byte) (v : Nat) : Int := if descrSigned d then sval (descrSize d) v else (v : Int)

/-- The bytes of a truth value (rule R161). -/
def truthBytes (p : Prop) [Decidable p] : List Byte := if p then [0x01] else [0x00]

/-- The error kinds each instruction can raise once its bytes are fetched (rule R238). -/
def kindsOf : Instr → List ErrorKind
  | .halt | .ecall => []
  | .push _ _ | .branch _ | .ret _ => [.outOfBounds, .invalidDescriptor]
  | .pop _ | .assign _ _ | .add _ _ | .sub _ _ | .and _ _ | .or _ _ | .xor _ _ | .mul _ _
  | .eql _ _ | .neq _ _ | .lss _ _ | .gtr _ _ | .leq _ _ | .geq _ _
  | .convert _ _ => [.outOfBounds, .invalidDescriptor, .invalidInstruction]
  | .shl _ _ | .shr _ _ => [.outOfBounds, .invalidDescriptor, .negativeShiftCount]
  | .jump | .call | .storeString _ => [.outOfBounds]
  | .load | .store | .quo | .rem | .jumpNoflag => [.unimplementedInstruction]

end Sys2Proof.Machine

open Sys2Proof Sys2Proof.Machine

/-! ### Descriptors, decoding and encoding -/

/-- Rules R110, R111, R112: which bytes are valid descriptors, and the fields of a valid one. -/
def Obligations.DescriptorDecoderReadsItsBits : Prop :=
  ∀ b : Byte,
    (validDescr b = true ↔
      b.toNat / 64 = 0 ∧ (b.toNat % 16 = 1 ∨ b.toNat % 16 = 2 ∨ b.toNat % 16 = 4 ∨ b.toNat % 16 = 8)) ∧
    (validDescr b = true ↔
      b ∈ ([0x01, 0x02, 0x04, 0x08, 0x11, 0x12, 0x14, 0x18, 0x21, 0x22, 0x24, 0x28, 0x31, 0x32, 0x34,
        0x38] : List Byte)) ∧
    (validDescr b = true → descrSize b = b.toNat % 16 ∧
      (descrSigned b = true ↔ b.toNat / 16 % 2 = 1) ∧ (descrIndirect b = true ↔ b.toNat / 32 % 2 = 1))

/-- Rules R82, R90: bytes written out from the formats decode to the instructions they stand for. -/
def Obligations.WrittenOutBytesDecode : Prop :=
  decode OpcodeMap.default [0x03, 0x02, 0x2C, 0x01] = .ok (.push 0x02 300) ∧
  decode OpcodeMap.default [0x05, 0x22, 0x02] = .ok (.assign 0x22 0x02) ∧
  decode OpcodeMap.default [0x07, 0x21, 0x01, 0xFF] = .ok (.sub 0x21 0x01) ∧
  decode OpcodeMap.default [0x16, 0x21] = .ok (.branch 0x21) ∧
  decode OpcodeMap.default [0x18, 0x00] = .ok (.ret 0x00) ∧
  decode OpcodeMap.default [0x19, 0x48, 0x69, 0x00, 0x02] = .ok (.storeString [0x48, 0x69]) ∧
  decode OpcodeMap.default [0x1E] = .ok .jumpNoflag ∧
  decode OpcodeMap.default [0x19, 0x48, 0x69] = .error .truncated ∧
  decode OpcodeMap.default [0x1F] = .error .unknownOpcode

/-- Under every injective opcode map (rule R89), decoding the bytes of a well-formed instruction (rules R80,
R82, R86, R88), whatever follows them, gives that instruction. -/
def Obligations.EncodeThenDecodeIsIdentity : Prop :=
  ∀ (o : OpcodeMap) (i : Instr) (rest : List Byte), o.toList.Nodup → i.wellFormed = true →
    decode o (encode o i ++ rest) = .ok i

/-- What the decoder accepts is a well-formed instruction's own bytes, so no bit of an encoding is dropped
(rules R80, R82). -/
def Obligations.DecodedInstructionIsItsBytes : Prop :=
  ∀ (o : OpcodeMap) (bytes : List Byte) (i : Instr), decode o bytes = .ok i →
    i.wellFormed = true ∧ (encode o i).length = i.length ∧ encode o i <+: bytes

/-! ### One step -/

/-- Rule R37: a stopped machine holds (the spec's decision D7); a running one executes the instruction at `pc`. -/
def Obligations.StepHoldsOrRunsTheDecodedInstruction : Prop :=
  (∀ s : State, s.status ≠ .running → step s = .next s) ∧
  (∀ (s : State) (i : Instr), s.status = .running →
    decodeFrom s.cfg.opcodes (fetchByte s) s.cfg.istoreSize = .ok i → step s = exec i s)

/-- When the bytes of `I` at `pc` are those of a well-formed instruction, a step of a running machine is that
instruction's effect (rules R80, R81). -/
def Obligations.StepRunsTheEncodedInstruction : Prop :=
  ∀ (s : State) (i : Instr), s.cfg.WF → s.status = .running → i.wellFormed = true →
    s.pc.toNat + i.length ≤ s.cfg.istoreSize →
    s.istore.readBytes s.pc.toNat i.length = encode s.cfg.opcodes i →
    step s = exec i s

/-- Rule R91: an opcode byte that is no mnemonic's raises InvalidInstruction, and under the default map
(the spec's decision D1) these are the 226 bytes named. -/
def Obligations.UnknownOpcodeRaisesInvalidInstruction : Prop :=
  (∀ s : State, s.status = .running → s.pc.toNat < s.cfg.istoreSize →
    s.istore.getByte s.pc.toNat ∉ s.cfg.opcodes.toList →
    step s = .next { s with status := .illegal, err := some .invalidInstruction }) ∧
  (∀ b : Byte, b ∉ OpcodeMap.default.toList ↔ b = 0x00 ∨ 0x1F ≤ b.toNat)

/-- Rule R231 (a), (b): a fetch at or beyond the end of `I` raises OutOfBounds, of the opcode byte, of an
operand byte, of an immediate byte, or of a literal with no terminator. -/
def Obligations.FetchBeyondTheStoreRaisesOutOfBounds : Prop :=
  (∀ s : State, s.status = .running → s.cfg.istoreSize ≤ s.pc.toNat →
    step s = .next { s with status := .illegal, err := some .outOfBounds }) ∧
  (∀ (s : State) (i : Instr), s.cfg.WF → s.status = .running → i.wellFormed = true →
    s.pc.toNat < s.cfg.istoreSize → s.cfg.istoreSize < s.pc.toNat + i.length →
    s.istore.readBytes s.pc.toNat (s.cfg.istoreSize - s.pc.toNat) =
      (encode s.cfg.opcodes i).take (s.cfg.istoreSize - s.pc.toNat) →
    step s = .next { s with status := .illegal, err := some .outOfBounds })

/-- Rule R82: an instruction that neither faults nor transfers control moves `pc` by its encoded length; BRANCH
does so when it is not taken. -/
def Obligations.PcAdvancesByTheEncodedLength : Prop :=
  ∀ (i : Instr) (s t : State), s.status ≠ .illegal → exec i s = .next t → t.status ≠ .illegal →
    match i with
    | .jump | .call | .ret _ => True
    | .branch d => operandValue (descrFields d) s (s.sp - 8) ≠ 0 → t.pc = s.pc + BitVec.ofNat 64 i.length
    | _ => t.pc = s.pc + BitVec.ofNat 64 i.length

/-- No state stops the model: every step of every state has a next state, the faults of the spec being next
states too (rules R37, R236; log entry 2). -/
def Obligations.EveryStepHasANextState : Prop := ∀ s : State, ∃ t, step s = .next t

/-! ### Faults -/

/-- Rule R236: when a step of a running machine raises a fault, `status` and `err` change and every other piece
of state keeps the value it had before the step (the spec's decision D6). -/
def Obligations.FaultsArePrecise : Prop :=
  ∀ s t : State, s.status = .running → step s = .next t → t.status = .illegal →
    ∃ k, t = { s with status := .illegal, err := some k }

/-- Rule R237: a fault is final, and so is HALT (rule R24): no sequence of steps and resumes changes anything
(the spec's decisions D7 and D9). -/
def Obligations.FaultAndHaltAreFinal : Prop :=
  ∀ (s : State) (events : List HostEvent), s.status = .illegal ∨ s.status = .halted →
    (∀ image, HostEvent.load image ∉ events) → deliverAll s events = s

/-- Rule R238: no instruction raises a kind the table does not give it; in particular no step raises
BytecodeTooLarge (rule R235). -/
def Obligations.InstructionsRaiseOnlyTheTabledKinds : Prop :=
  ∀ (i : Instr) (s t : State), s.status ≠ .illegal → exec i s = .next t → t.status = .illegal →
    ∃ k ∈ kindsOf i, t.err = some k

/-- Rule R233: an invalid descriptor byte raises InvalidDescriptor, whatever the stack holds; RETURN's `0x00` is
no descriptor (the order of the checks is the spec's decision D10). -/
def Obligations.InvalidDescriptorsAreRaisedFirst : Prop :=
  ∀ s : State,
    (∀ d, validDescr d = false →
      (∀ imm, Raises (.push d imm) s .invalidDescriptor) ∧ Raises (.pop d) s .invalidDescriptor ∧
      Raises (.branch d) s .invalidDescriptor ∧ (d ≠ 0 → Raises (.ret d) s .invalidDescriptor)) ∧
    (∀ d1 d2, validDescr d1 = false ∨ validDescr d2 = false →
      Raises (.assign d1 d2) s .invalidDescriptor ∧ Raises (.add d1 d2) s .invalidDescriptor ∧
      Raises (.sub d1 d2) s .invalidDescriptor ∧ Raises (.and d1 d2) s .invalidDescriptor ∧
      Raises (.or d1 d2) s .invalidDescriptor ∧ Raises (.xor d1 d2) s .invalidDescriptor ∧
      Raises (.mul d1 d2) s .invalidDescriptor ∧ Raises (.shl d1 d2) s .invalidDescriptor ∧
      Raises (.shr d1 d2) s .invalidDescriptor ∧ Raises (.eql d1 d2) s .invalidDescriptor ∧
      Raises (.neq d1 d2) s .invalidDescriptor ∧ Raises (.lss d1 d2) s .invalidDescriptor ∧
      Raises (.gtr d1 d2) s .invalidDescriptor ∧ Raises (.leq d1 d2) s .invalidDescriptor ∧
      Raises (.geq d1 d2) s .invalidDescriptor ∧ Raises (.convert d1 d2) s .invalidDescriptor)

/-- Rule R232 (b) to (e): descriptors of different types, a direct ASSIGN destination, an indirect POP and an
indirect CONVERT destination raise InvalidInstruction (the kinds of the last two are the spec's decisions D14 and
D15), whatever the stack holds. -/
def Obligations.MisusedDescriptorsRaiseInvalidInstruction : Prop :=
  ∀ (s : State) (d1 d2 : Byte), validDescr d1 = true → validDescr d2 = true →
    (sameType (descrFields d1) (descrFields d2) = false →
      Raises (.assign d1 d2) s .invalidInstruction ∧ Raises (.add d1 d2) s .invalidInstruction ∧
      Raises (.sub d1 d2) s .invalidInstruction ∧ Raises (.and d1 d2) s .invalidInstruction ∧
      Raises (.or d1 d2) s .invalidInstruction ∧ Raises (.xor d1 d2) s .invalidInstruction ∧
      Raises (.mul d1 d2) s .invalidInstruction ∧ Raises (.eql d1 d2) s .invalidInstruction ∧
      Raises (.neq d1 d2) s .invalidInstruction ∧ Raises (.lss d1 d2) s .invalidInstruction ∧
      Raises (.gtr d1 d2) s .invalidInstruction ∧ Raises (.leq d1 d2) s .invalidInstruction ∧
      Raises (.geq d1 d2) s .invalidInstruction) ∧
    (descrIndirect d1 = false → Raises (.assign d1 d2) s .invalidInstruction) ∧
    (descrIndirect d1 = true → Raises (.pop d1) s .invalidInstruction) ∧
    (descrIndirect d2 = true → Raises (.convert d1 d2) s .invalidInstruction)

/-- Rule R231 (c), (d), (f) for the two-operand instructions: with their static requirements met and an operand
that cannot be read, they raise OutOfBounds. -/
def Obligations.UnreadableOperandsRaiseOutOfBounds : Prop :=
  ∀ (s : State) (d1 d2 : Byte), validDescr d1 = true → validDescr d2 = true → ¬PairReady d1 d2 s →
    (sameType (descrFields d1) (descrFields d2) = true →
      Raises (.add d1 d2) s .outOfBounds ∧ Raises (.sub d1 d2) s .outOfBounds ∧
      Raises (.and d1 d2) s .outOfBounds ∧ Raises (.or d1 d2) s .outOfBounds ∧
      Raises (.xor d1 d2) s .outOfBounds ∧ Raises (.mul d1 d2) s .outOfBounds ∧
      Raises (.eql d1 d2) s .outOfBounds ∧ Raises (.neq d1 d2) s .outOfBounds ∧
      Raises (.lss d1 d2) s .outOfBounds ∧ Raises (.gtr d1 d2) s .outOfBounds ∧
      Raises (.leq d1 d2) s .outOfBounds ∧ Raises (.geq d1 d2) s .outOfBounds) ∧
    Raises (.shl d1 d2) s .outOfBounds ∧ Raises (.shr d1 d2) s .outOfBounds

/-- Rule R231 (c) to (f) for the instructions of one operand or none: stack underflow, `sp` outside `S`, stack
overflow and a slot outside `S` raise OutOfBounds. -/
def Obligations.StackUnderflowAndOverflowRaiseOutOfBounds : Prop :=
  ∀ s : State,
    (∀ d imm, validDescr d = true → s.cfg.stackSize < s.sp.toNat + descrSize d →
      Raises (.push d imm) s .outOfBounds) ∧
    (∀ d, validDescr d = true → descrIndirect d = false →
      s.sp.toNat < descrSize d ∨ s.cfg.stackSize < s.sp.toNat → Raises (.pop d) s .outOfBounds) ∧
    (¬OffsetReady s s.sp →
      Raises .jump s .outOfBounds ∧ Raises .call s .outOfBounds ∧ Raises (.ret 0) s .outOfBounds ∧
      (∀ d, validDescr d = true →
        Raises (.branch d) s .outOfBounds ∧ Raises (.ret d) s .outOfBounds)) ∧
    (∀ literal, ¬OperandReady (descrFields 0x28#8) s s.sp →
      Raises (.storeString literal) s .outOfBounds) ∧
    (∀ d, validDescr d = true → ¬OperandReady (descrFields d) s (s.sp - 8) →
      Raises (.branch d) s .outOfBounds) ∧
    (s.cfg.stackSize < s.sp.toNat + 8 → Raises .call s .outOfBounds) ∧
    (∀ d1 d2, validDescr d1 = true → validDescr d2 = true → descrIndirect d2 = false →
      ¬OperandReady (descrFields d1) s s.sp ∨
        s.cfg.stackSize < (belowOperand (descrFields d1) s.sp).toNat + descrSize d2 →
      Raises (.convert d1 d2) s .outOfBounds) ∧
    (∀ d1 d2, validDescr d1 = true → validDescr d2 = true →
      sameType (descrFields d1) (descrFields d2) = true → descrIndirect d1 = true →
      ¬OperandReady (descrFields d2) s s.sp ∨
        ¬OffsetReady s (belowOperand (descrFields d2) s.sp) ∨
        s.cfg.stackSize <
          (frameAddr s (offsetValue s (belowOperand (descrFields d2) s.sp))).toNat + descrSize d1 →
      Raises (.assign d1 d2) s .outOfBounds)

/-- Rules R186, R190: a RETURN whose linkage words are not both inside `S` raises OutOfBounds (the outermost
code, at `fp = 0`, has none), and so does one whose payload cannot be read, or does not fit at the new `sp`. -/
def Obligations.ReturnOutsideTheStackRaisesOutOfBounds : Prop :=
  (∀ (s : State) (d : Byte), d = 0 ∨ validDescr d = true →
    s.cfg.WF → s.fp.toNat < 16 ∨ s.cfg.stackSize < s.fp.toNat → Raises (.ret d) s .outOfBounds) ∧
  (∀ (s : State) (d : Byte), validDescr d = true →
    ¬OperandReady (descrFields d) s (s.sp - 8) ∨
      s.cfg.stackSize < (s.fp + BitVec.ofNat 64 (offsetValue s s.sp)).toNat + descrSize d →
    Raises (.ret d) s .outOfBounds)

/-- Rule R153: a signed count with its sign bit set raises NegativeShiftCount once both operands are popped. -/
def Obligations.NegativeCountsRaiseNegativeShiftCount : Prop :=
  ∀ (s : State) (d1 d2 : Byte), PairReady d1 d2 s → descrSigned d2 = true →
    reading d2 (rightValue d2 s) < 0 →
    Raises (.shl d1 d2) s .negativeShiftCount ∧ Raises (.shr d1 d2) s .negativeShiftCount

/-- Rule R203: a destination not wholly inside the device window raises OutOfBounds, and with it no byte of `M`
is written (the kind and the test of the whole destination are the spec's decision D20). -/
def Obligations.StoreStringOutsideTheWindowRaisesOutOfBounds : Prop :=
  ∀ (s : State) (literal : List Byte), OperandReady (descrFields 0x28#8) s s.sp →
    operandValue (descrFields 0x28#8) s s.sp < s.cfg.devBase ∨
      s.cfg.devLimit < operandValue (descrFields 0x28#8) s s.sp + (literal.length + 1) →
    Raises (.storeString literal) s .outOfBounds

/-! ### What each instruction does -/

/-- PUSH (rule R130): exactly the `Size(d)` immediate bytes enter the stack, whatever the sign and mode bits. -/
def Obligations.PushStoresItsImmediate : Prop :=
  ∀ (d : Byte) (imm : Nat) (s : State), s.stack.wf = true → validDescr d = true →
    s.sp.toNat + descrSize d ≤ s.cfg.stackSize →
    ∃ t, exec (.push d imm) s = .next t ∧
      StackEffect s t (s.pc + BitVec.ofNat 64 (2 + descrSize d)) (s.sp + BitVec.ofNat 64 (descrSize d))
        s.fp s.sp.toNat (leBytes (descrSize d) imm)

/-- POP (rule R131): `sp` falls by the width and every byte stays where it is. -/
def Obligations.PopMovesOnlyTheStackPointer : Prop :=
  ∀ (d : Byte) (s : State), validDescr d = true → descrIndirect d = false →
    descrSize d ≤ s.sp.toNat → s.sp.toNat ≤ s.cfg.stackSize →
    ∃ t, exec (.pop d) s = .next t ∧
      StackEffect s t (s.pc + 2) (s.sp - BitVec.ofNat 64 (descrSize d)) s.fp 0 []

/-- ASSIGN (rule R133): the payload goes to the frame slot that the offset below it names, and nowhere else. -/
def Obligations.AssignStoresToTheAddressedSlot : Prop :=
  ∀ (d1 d2 : Byte) (s : State), s.stack.wf = true → validDescr d1 = true → validDescr d2 = true →
    sameType (descrFields d1) (descrFields d2) = true → descrIndirect d1 = true →
    OperandReady (descrFields d2) s s.sp → OffsetReady s (belowOperand (descrFields d2) s.sp) →
    (frameAddr s (offsetValue s (belowOperand (descrFields d2) s.sp))).toNat + descrSize d1 ≤
      s.cfg.stackSize →
    ∃ t, exec (.assign d1 d2) s = .next t ∧
      StackEffect s t (s.pc + 3) (belowOperand (descrFields d2) s.sp - 8) s.fp
        (frameAddr s (offsetValue s (belowOperand (descrFields d2) s.sp))).toNat
        (leBytes (descrSize d1) (rightValue d2 s))

/-- ADD, SUB and MUL (rules R141, R142, R146): sum, difference and product modulo `2^(8w)`, the same bits for
both signednesses. -/
def Obligations.AddSubMulPushTheWrappedResult : Prop :=
  ∀ (d1 d2 : Byte) (s : State), s.stack.wf = true → PairReady d1 d2 s →
    sameType (descrFields d1) (descrFields d2) = true →
    PairPushes (.add d1 d2) d1 d2 s (leBytes (descrSize d1)
      ((leftValue d1 d2 s + rightValue d2 s) % 2 ^ (8 * descrSize d1))) ∧
    PairPushes (.sub d1 d2) d1 d2 s (leBytes (descrSize d1)
      (((leftValue d1 d2 s : Int) - (rightValue d2 s : Int)) % (2 ^ (8 * descrSize d1) : Int)).toNat) ∧
    PairPushes (.mul d1 d2) d1 d2 s (leBytes (descrSize d1)
      ((leftValue d1 d2 s * rightValue d2 s) % 2 ^ (8 * descrSize d1)))

/-- AND, OR and XOR (rules R143, R144, R145): bit by bit on the `8w` bits of the operands. -/
def Obligations.AndOrXorPushTheBitwiseResult : Prop :=
  ∀ (d1 d2 : Byte) (s : State), s.stack.wf = true → PairReady d1 d2 s →
    sameType (descrFields d1) (descrFields d2) = true →
    ∃ x y z : Nat,
      (x < 2 ^ (8 * descrSize d1) ∧
        ∀ k, x.testBit k = ((leftValue d1 d2 s).testBit k && (rightValue d2 s).testBit k)) ∧
      (y < 2 ^ (8 * descrSize d1) ∧
        ∀ k, y.testBit k = ((leftValue d1 d2 s).testBit k || (rightValue d2 s).testBit k)) ∧
      (z < 2 ^ (8 * descrSize d1) ∧
        ∀ k, z.testBit k = ((leftValue d1 d2 s).testBit k ^^ (rightValue d2 s).testBit k)) ∧
      PairPushes (.and d1 d2) d1 d2 s (leBytes (descrSize d1) x) ∧
      PairPushes (.or d1 d2) d1 d2 s (leBytes (descrSize d1) y) ∧
      PairPushes (.xor d1 d2) d1 d2 s (leBytes (descrSize d1) z)

/-- SHL (rule R151) for every non-negative count, never reduced (the spec's decision D19). -/
def Obligations.ShlPushesTheShiftedValue : Prop :=
  ∀ (d1 d2 : Byte) (s : State), s.stack.wf = true → PairReady d1 d2 s →
    0 ≤ reading d2 (rightValue d2 s) →
    PairPushes (.shl d1 d2) d1 d2 s (leBytes (descrSize d1)
      ((leftValue d1 d2 s * 2 ^ rightValue d2 s) % 2 ^ (8 * descrSize d1)))

/-- SHR (rule R152): the floor of the value's own reading divided by `2^b`, for every non-negative count
(the spec's decision D19). -/
def Obligations.ShrPushesTheFlooredQuotient : Prop :=
  ∀ (d1 d2 : Byte) (s : State), s.stack.wf = true → PairReady d1 d2 s →
    0 ≤ reading d2 (rightValue d2 s) →
    PairPushes (.shr d1 d2) d1 d2 s (leBytes (descrSize d1)
      ((reading d1 (leftValue d1 d2 s) / 2 ^ rightValue d2 s) % (2 ^ (8 * descrSize d1) : Int)).toNat)

/-- The six comparisons (rules R161 to R168): one byte, the truth of the relation between the operands' own
readings, which is the spec's own inference in rule R168 ("This equals …"). -/
def Obligations.ComparisonsPushTheTruthByte : Prop :=
  ∀ (d1 d2 : Byte) (s : State), s.stack.wf = true → PairReady d1 d2 s →
    sameType (descrFields d1) (descrFields d2) = true →
    PairPushes (.eql d1 d2) d1 d2 s (truthBytes (leftValue d1 d2 s = rightValue d2 s)) ∧
    PairPushes (.neq d1 d2) d1 d2 s (truthBytes (leftValue d1 d2 s ≠ rightValue d2 s)) ∧
    PairPushes (.lss d1 d2) d1 d2 s
      (truthBytes (reading d1 (leftValue d1 d2 s) < reading d2 (rightValue d2 s))) ∧
    PairPushes (.gtr d1 d2) d1 d2 s
      (truthBytes (reading d2 (rightValue d2 s) < reading d1 (leftValue d1 d2 s))) ∧
    PairPushes (.leq d1 d2) d1 d2 s
      (truthBytes (reading d1 (leftValue d1 d2 s) ≤ reading d2 (rightValue d2 s))) ∧
    PairPushes (.geq d1 d2) d1 d2 s
      (truthBytes (reading d2 (rightValue d2 s) ≤ reading d1 (leftValue d1 d2 s)))

/-- CONVERT (rule R171): the source's own reading at the destination's width. -/
def Obligations.ConvertPushesTheReadingAtTheNewWidth : Prop :=
  ∀ (d1 d2 : Byte) (s : State), s.stack.wf = true → validDescr d1 = true → validDescr d2 = true →
    descrIndirect d2 = false → OperandReady (descrFields d1) s s.sp →
    (belowOperand (descrFields d1) s.sp).toNat + descrSize d2 ≤ s.cfg.stackSize →
    ∃ t, exec (.convert d1 d2) s = .next t ∧
      StackEffect s t (s.pc + 3)
        (belowOperand (descrFields d1) s.sp + BitVec.ofNat 64 (descrSize d2)) s.fp
        (belowOperand (descrFields d1) s.sp).toNat
        (leBytes (descrSize d2)
          (reading d1 (operandValue (descrFields d1) s s.sp) % (2 ^ (8 * descrSize d2) : Int)).toNat)

/-- JUMP (rules R180, R181): `pc` moves from its own opcode by the offset on the stack, which is popped. -/
def Obligations.JumpMovesByThePoppedOffset : Prop :=
  ∀ s : State, OffsetReady s s.sp →
    ∃ t, exec .jump s = .next t ∧
      StackEffect s t (s.pc + BitVec.ofNat 64 (offsetValue s s.sp)) (s.sp - 8) s.fp 0 []

/-- BRANCH (rules R183, R184): the offset lies above the condition; taken exactly on zero. -/
def Obligations.BranchIsTakenOnZero : Prop :=
  ∀ (d : Byte) (s : State), validDescr d = true → OffsetReady s s.sp →
    OperandReady (descrFields d) s (s.sp - 8) →
    ∃ t, exec (.branch d) s = .next t ∧
      StackEffect s t
        (if operandValue (descrFields d) s (s.sp - 8) = 0 then
          s.pc + BitVec.ofNat 64 (offsetValue s s.sp) else s.pc + 2)
        (belowOperand (descrFields d) (s.sp - 8)) s.fp 0 []

/-- CALL (rule R185): the saved `fp` where the offset was, the return `pc` above it, and a new frame there. -/
def Obligations.CallSavesLinkageAndOpensAFrame : Prop :=
  ∀ s : State, s.cfg.WF → s.stack.wf = true → 8 ≤ s.sp.toNat → s.sp.toNat + 8 ≤ s.cfg.stackSize →
    ∃ t, exec .call s = .next t ∧
      StackEffect s t (s.pc + BitVec.ofNat 64 (offsetValue s s.sp)) (s.sp + 8) (s.sp + 8)
        (s.sp - 8).toNat (leBytes 8 s.fp.toNat ++ leBytes 8 (s.pc + 1).toNat)

/-- RETURN with the null operand (rule R186): the linkage words are restored and `sp` becomes `a + fp`. -/
def Obligations.ReturnNullRestoresTheFrame : Prop :=
  ∀ s : State, OffsetReady s s.sp → 16 ≤ s.fp.toNat → s.fp.toNat ≤ s.cfg.stackSize →
    ∃ t, exec (.ret 0) s = .next t ∧
      StackEffect s t (BitVec.ofNat 64 (s.stack.readLE (s.fp.toNat - 8) 8))
        (s.fp + BitVec.ofNat 64 (offsetValue s s.sp))
        (BitVec.ofNat 64 (s.stack.readLE (s.fp.toNat - 16) 8)) 0 []

/-- RETURN with a payload (rule R186): the payload, read in the callee's frame, is pushed at `a + fp`; the
linkage words are those that stood before the push. -/
def Obligations.ReturnPayloadIsPushedAtTheNewTop : Prop :=
  ∀ (d : Byte) (s : State), s.stack.wf = true → validDescr d = true → OffsetReady s s.sp →
    16 ≤ s.fp.toNat → s.fp.toNat ≤ s.cfg.stackSize → OperandReady (descrFields d) s (s.sp - 8) →
    (s.fp + BitVec.ofNat 64 (offsetValue s s.sp)).toNat + descrSize d ≤ s.cfg.stackSize →
    ∃ t, exec (.ret d) s = .next t ∧
      StackEffect s t (BitVec.ofNat 64 (s.stack.readLE (s.fp.toNat - 8) 8))
        (s.fp + BitVec.ofNat 64 (offsetValue s s.sp) + BitVec.ofNat 64 (descrSize d))
        (BitVec.ofNat 64 (s.stack.readLE (s.fp.toNat - 16) 8))
        (s.fp + BitVec.ofNat 64 (offsetValue s s.sp)).toNat
        (leBytes (descrSize d) (operandValue (descrFields d) s (s.sp - 8)))

/-- HALT (rule R200): `status` becomes Halted, `pc` passes the byte, nothing else changes. -/
def Obligations.HaltBecomesHaltedPastItsByte : Prop :=
  ∀ s : State, exec .halt s = .next { s with status := .halted, pc := s.pc + 1 }

/-- ECALL (rules R201, R240): the trap changes `status` and `pc` and nothing else. -/
def Obligations.EcallTakesTheTrap : Prop :=
  ∀ s : State, exec .ecall s = .next { s with status := .trapped, pc := s.pc + 1 }

/-- STORE_STRING (rules R202, R203): the literal and its terminator are copied to the address in the frame slot,
inside the device window; only those bytes of `M`, `pc` and `sp` change. -/
def Obligations.StoreStringCopiesItsLiteral : Prop :=
  ∀ (literal : List Byte) (s : State), s.cfg.WF → s.mem.wf = true →
    OperandReady (descrFields 0x28#8) s s.sp →
    s.cfg.devBase ≤ operandValue (descrFields 0x28#8) s s.sp →
    operandValue (descrFields 0x28#8) s s.sp + (literal.length + 1) ≤ s.cfg.devLimit →
    ∃ t, exec (.storeString literal) s = .next t ∧
      t.mem.readBytes (operandValue (descrFields 0x28#8) s s.sp) (literal.length + 1) = literal ++ [0] ∧
      (∀ a, a < operandValue (descrFields 0x28#8) s s.sp ∨
        operandValue (descrFields 0x28#8) s s.sp + (literal.length + 1) ≤ a →
        t.mem.getByte a = s.mem.getByte a) ∧
      t.pc = s.pc + BitVec.ofNat 64 (1 + (literal.length + 1)) ∧ t.sp = s.sp - 8 ∧ t.fp = s.fp ∧
      t.stack = s.stack ∧ t.istore = s.istore ∧ t.status = s.status ∧ t.err = s.err ∧ t.cfg = s.cfg

/-- LOAD, STORE, QUO, REM and JUMP_NOFLAG (rules R220 to R225): recognised, and reported as not implemented (always:
the spec's decision D16). -/
def Obligations.ReservedOpcodesRaiseUnimplementedInstruction : Prop :=
  ∀ s : State,
    Raises .load s .unimplementedInstruction ∧ Raises .store s .unimplementedInstruction ∧
    Raises .quo s .unimplementedInstruction ∧ Raises .rem s .unimplementedInstruction ∧
    Raises .jumpNoflag s .unimplementedInstruction

/-! ### Several instructions together -/

/-- PUSH then POP of one direct descriptor changes nothing but `pc` and the bytes above `sp`: the spec's own inference
in rule R132, from rules R130, R131 and R118. -/
def Obligations.PushThenPopLeavesTheStackPointer : Prop :=
  ∀ (d : Byte) (imm : Nat) (s : State), s.cfg.WF → s.stack.wf = true → validDescr d = true →
    descrIndirect d = false → s.sp.toNat + descrSize d ≤ s.cfg.stackSize →
    ∃ t u, exec (.push d imm) s = .next t ∧ exec (.pop d) t = .next u ∧
      StackEffect s u (s.pc + BitVec.ofNat 64 (4 + descrSize d)) s.sp s.fp s.sp.toNat
        (leBytes (descrSize d) imm)

/-- SUB undoes ADD for every pair of operands, with wrap and without: the spec's own inference in rule R148, from rules
R141 and R142. -/
def Obligations.SubUndoesAdd : Prop :=
  ∀ w a b : Nat, a < 2 ^ (8 * w) → b < 2 ^ (8 * w) → subValue w (addValue w a b) b = a

/-- Rule R189: a routine that at once pushes the adjustment `a` and RETURNs with the null operand comes back
behind the CALL with the caller's frame and `sp = sp0 + 8 + a`: `sp0 + 8` for `a = 0`, `sp0 - 8` for −16 (conflict
C1 as the spec resolves it). -/
def Obligations.CallThenReturnRestoresTheCaller : Prop :=
  ∀ (s : State) (a : Word), s.cfg.WF → s.stack.wf = true → 8 ≤ s.sp.toNat →
    s.sp.toNat + 16 ≤ s.cfg.stackSize →
    ∃ t u v, exec .call s = .next t ∧ exec (.push 0x08 a.toNat) t = .next u ∧
      exec (.ret 0) u = .next v ∧ v.pc = s.pc + 1 ∧ v.fp = s.fp ∧ v.sp = s.sp + 8 + a ∧
      v.status = s.status

/-- Rules R205, R206: after a STORE_STRING at `DEV_BASE` and an ECALL, which moves only `pc` and `status`, the host
reads exactly the literal's bytes. -/
def Obligations.HostReadsTheStoredString : Prop :=
  ∀ (literal : List Byte) (s : State), s.cfg.WF → s.mem.wf = true →
    (Instr.storeString literal).wellFormed = true → OperandReady (descrFields 0x28#8) s s.sp →
    operandValue (descrFields 0x28#8) s s.sp = s.cfg.devBase →
    s.cfg.devBase + (literal.length + 1) ≤ s.cfg.devLimit →
    ∃ t u, exec (.storeString literal) s = .next t ∧ exec .ecall t = .next u ∧
      u.status = .trapped ∧ u.pc = t.pc + 1 ∧ u.mem = t.mem ∧ hostString u = literal

/-- Rule R207: the host's read of a stopped machine meets a zero byte inside the device window. -/
def Obligations.HostReadEndsInsideTheWindow : Prop :=
  ∀ s : State, s.Inv → s.status ≠ .running →
    ∃ n, n < s.cfg.devLimit - s.cfg.devBase ∧ s.mem.getByte (s.cfg.devBase + n) = 0 ∧
      hostString s = s.mem.readBytes s.cfg.devBase n

/-- Rules R207, R241: `resume` changes Trapped into Running and nothing else, so ECALL and `resume` together
move `pc` past the ECALL and leave the rest; in every other status it has no effect (the spec's decision D9). -/
def Obligations.ResumeLeavesOnlyTrapped : Prop :=
  (∀ s : State, s.status = .trapped → resume s = { s with status := .running }) ∧
  (∀ s : State, s.status ≠ .trapped → resume s = s) ∧
  (∀ s : State, s.status = .running → ∃ t, exec .ecall s = .next t ∧ resume t = { s with pc := s.pc + 1 })

/-! ### Arithmetic of the operand values -/

/-- Sign-bit-first comparison is two's-complement order when signed and raw order when not: the spec's own inference
in rule R168 ("This equals …"). -/
def Obligations.LessIsTheOrderOfTheReadings : Prop :=
  ∀ w x y : Nat, 1 ≤ w → x < 2 ^ (8 * w) → y < 2 ^ (8 * w) →
    (less w true x y = true ↔ sval w x < sval w y) ∧ (less w false x y = true ↔ x < y)

/-- Rules R151, R152: the closed forms the model computes for large counts (log entry 11) are the mathematical shifts,
so no count is ever reduced. -/
def Obligations.ShiftClosedFormsAreTheMathematicalShifts : Prop :=
  ∀ w a b : Nat, 1 ≤ w → a < 2 ^ (8 * w) →
    (∀ sg, shlValue w sg a b = (a * 2 ^ b) % 2 ^ (8 * w)) ∧
    shrValue w false a b = a / 2 ^ b ∧
    (shrValue w true a b : Int) = (sval w a / 2 ^ b) % 2 ^ (8 * w) ∧
    (signBit w a = true → 8 * w - 1 ≤ b → shrValue w true a b = 2 ^ (8 * w) - 1)

/-! ### Arenas -/

/-- Rule R55: an access is allowed exactly when it lies inside the arena, computed without wrap, and raises
OutOfBounds otherwise. -/
def Obligations.AccessIsAllowedExactlyInsideTheArena : Prop :=
  ∀ (x : Space) (a : Word) (n v : Nat) (s : State),
    (a.toNat + n ≤ s.capacity x →
      (∃ r, memRead x a n s = .ok r) ∧ ∃ t, memWrite x a n v s = .ok t) ∧
    (s.capacity x < a.toNat + n →
      memRead x a n s = .error .outOfBounds ∧ memWrite x a n v s = .error .outOfBounds)

/-- Rules R11, R50, R52: what is written is read back little-endian, at any narrower width inside it, and every
other byte of the arena and every other arena is as it was. -/
def Obligations.ReadAfterWriteSeesTheLittleEndianBytes : Prop :=
  ∀ (x : Space) (a : Word) (n v : Nat) (s t : State), s.cfg.WF → (s.arena x).wf = true →
    memWrite x a n v s = .ok t →
    (∀ k m, k + m ≤ n → memRead x (a + BitVec.ofNat 64 k) m t = .ok (v / 256 ^ k % 256 ^ m)) ∧
    (∀ k, k < a.toNat ∨ a.toNat + n ≤ k → (t.arena x).getByte k = (s.arena x).getByte k) ∧
    (∀ y, y ≠ x → t.arena y = s.arena y)

/-! ### Rules of the whole machine -/

/-- Rules R28, R63: no step writes the instruction store, nor the machine's parameters (rule R7). -/
def Obligations.StepsNeverWriteTheInstructionStore : Prop :=
  ∀ s t : State, step s = .next t → t.istore = s.istore ∧ t.cfg = s.cfg

/-- Rules R30, R204: a byte of `M` changes only by STORE_STRING and only inside the device window. -/
def Obligations.OnlyStoreStringWritesGeneralMemory : Prop :=
  ∀ (i : Instr) (s t : State) (a : Nat), exec i s = .next t → t.mem.getByte a ≠ s.mem.getByte a →
    (∃ literal, i = .storeString literal) ∧ s.cfg.devBase ≤ a ∧ a < s.cfg.devLimit

/-- Rules R30, R204: no instruction reads `M`. From the same state with other contents `m` of `M` a step does the same
to all the rest; and in `M` it does the same too: at every address either both runs keep the byte they had, or both
leave the same byte there. The clause about bytes asks for canonical memories, in which a byte written is read back. -/
def Obligations.NoStepReadsGeneralMemory : Prop :=
  ∀ (s t : State) (m : Memory), step s = .next t →
    ∃ m', step { s with mem := m } = .next { t with mem := m' } ∧
      (s.mem.wf = true → m.wf = true → ∀ a,
        (m'.getByte a = m.getByte a ∧ t.mem.getByte a = s.mem.getByte a) ∨
          m'.getByte a = t.mem.getByte a)

/-- Rule R21: only CALL and RETURN write `fp`. -/
def Obligations.OnlyCallAndReturnWriteTheFramePointer : Prop :=
  ∀ (i : Instr) (s t : State), exec i s = .next t → t.fp ≠ s.fp → i = .call ∨ ∃ d, i = .ret d

/-- Rule R24: among the instructions only HALT makes the status Halted, only ECALL makes it Trapped, and none
makes a stopped machine Running. -/
def Obligations.StatusIsWrittenOnlyAsTabled : Prop :=
  ∀ (i : Instr) (s t : State), exec i s = .next t →
    (t.status = .halted → s.status = .halted ∨ i = .halt) ∧
    (t.status = .trapped → s.status = .trapped ∨ i = .ecall) ∧
    (t.status = .running → s.status = .running)

/-- The invariant (Safety.lean) is kept by every step of every state that meets it (rules R25, R28 to R30, R204,
R207). -/
def Obligations.StepKeepsTheInvariant : Prop :=
  ∀ s t : State, s.Inv → step s = .next t → t.Inv

/-- Every load meets the invariant: the spec's reset is `load(image)` (rule R260), here of any image into any machine
with parameters as rule R7 asks. So does `State.reset`, which depends on REF and the empty image, the model's choice
(log entries 1 and 3). -/
def Obligations.ResetMeetsTheInvariant : Prop :=
  (∀ (c : Config) (image : List Byte), c.WF → (load c image).Inv) ∧ State.reset.Inv

/-- The invariant is kept by every event of the boundary, load, step or resume (rule R36), in every state that meets
it. That a load in mid-run keeps the parameters, so that they still meet rule R7, is the model's choice (log
entry 7). -/
def Obligations.HostEventsKeepTheInvariant : Prop :=
  ∀ (s : State) (e : HostEvent), s.Inv → (deliver s e).Inv

/-- Every machine with parameters as rule R7 asks, whatever events its host issues after loading an image, in
whatever order, meets the invariant at every moment. That a load in mid-run keeps the parameters is the model's
choice (log entry 7). -/
def Obligations.EveryRunMeetsTheInvariant : Prop :=
  ∀ (c : Config) (image : List Byte) (events : List HostEvent), c.WF →
    (deliverAll (load c image) events).Inv

/-! ### Load and reset -/

/-- Rules R261, R262: the state after a successful load. -/
def Obligations.LoadPlacesTheImageAndZeroesTheRest : Prop :=
  ∀ (c : Config) (image : List Byte), image.length ≤ c.istoreSize →
    (load c image).pc = 0 ∧ (load c image).fp = 0 ∧ (load c image).sp = 0 ∧
    (load c image).status = .running ∧ (load c image).err = none ∧
    (∀ k (h : k < image.length), (load c image).istore.getByte k = image[k]) ∧
    (∀ k, image.length ≤ k → (load c image).istore.getByte k = 0) ∧
    (∀ a, (load c image).stack.getByte a = 0) ∧ (∀ a, (load c image).mem.getByte a = 0)

/-- Rule R263: a load of an image longer than the store fails, stores nothing, and no step executes; an image of
exactly the store's size loads (the state left is the spec's decision D23). -/
def Obligations.OversizedLoadFailsWithNothingStored : Prop :=
  (∀ (c : Config) (image : List Byte), c.istoreSize < image.length →
    (load c image).status = .illegal ∧ (load c image).err = some .bytecodeTooLarge ∧
    (load c image).pc = 0 ∧ (load c image).fp = 0 ∧ (load c image).sp = 0 ∧
    (∀ a, (load c image).istore.getByte a = 0 ∧ (load c image).stack.getByte a = 0 ∧
      (load c image).mem.getByte a = 0) ∧
    step (load c image) = .next (load c image)) ∧
  (∀ (c : Config) (image : List Byte), image.length = c.istoreSize →
    (load c image).status = .running ∧ (load c image).err = none)

/-- Rule R33: the reset values. The reset state is the load of the empty image into REF, the model's choice of
configuration and image (log entries 1 and 3). -/
def Obligations.ResetIsTheLoadOfTheEmptyImage : Prop :=
  State.reset = load Config.ref [] ∧ State.reset.pc = 0 ∧ State.reset.fp = 0 ∧ State.reset.sp = 0 ∧
  State.reset.status = .running ∧ State.reset.err = none ∧
  (∀ a, State.reset.istore.getByte a = 0 ∧ State.reset.stack.getByte a = 0 ∧
    State.reset.mem.getByte a = 0)
end

