-- ==== Sys2Proof/Laws/Bits.lean ====
section
/-! SUPPORT. Laws of the byte order and of the signed reading. -/

namespace Sys2Proof

theorem modulus_pos (w : Nat) : 0 < modulus w := Nat.two_pow_pos _

@[simp] theorem modulus_zero : modulus 0 = 1 := rfl

theorem modulus_succ (w : Nat) : modulus (w + 1) = 256 * modulus w := by
  rw [modulus, modulus, Nat.mul_succ, Nat.pow_add, Nat.mul_comm]

@[simp] theorem leBytes_length (n v : Nat) : (leBytes n v).length = n := by
  induction n generalizing v with
  | zero => rfl
  | succ n ih => simp [leBytes, ih]

theorem leValue_lt (bs : List Byte) : leValue bs < modulus bs.length := by
  induction bs with
  | nil => simp [leValue]
  | cons b bs ih =>
    have := b.isLt
    simp only [leValue, List.length_cons, modulus_succ]
    omega

theorem leValue_leBytes (n v : Nat) : leValue (leBytes n v) = v % modulus n := by
  induction n generalizing v with
  | zero => simp [leBytes, leValue, Nat.mod_one]
  | succ n ih => simp [leBytes, leValue, ih, modulus_succ, Nat.mod_mul]

theorem leBytes_leValue (bs : List Byte) : leBytes bs.length (leValue bs) = bs := by
  induction bs with
  | nil => rfl
  | cons b bs ih =>
    have hb := b.isLt
    have hdiv : (b.toNat + 256 * leValue bs) / 256 = leValue bs := by omega
    have hmod : BitVec.ofNat 8 (b.toNat + 256 * leValue bs) = b := by
      apply BitVec.eq_of_toNat_eq
      simp only [BitVec.toNat_ofNat]
      omega
    simp [leBytes, leValue, hdiv, hmod, ih]

/-- Only the low `n` bytes of a number matter to its `n` bytes (rule R118). -/
theorem leBytes_mod (n v : Nat) : leBytes n (v % modulus n) = leBytes n v := by
  have h := leBytes_leValue (leBytes n v)
  rwa [leBytes_length, leValue_leBytes] at h

theorem modulus_eq_pow (w : Nat) : modulus w = 256 ^ w := by rw [modulus, Nat.pow_mul]

/-- Byte `k` of a number is its quotient by `256^k` (rule R11). -/
theorem getElem_leBytes (n v k : Nat) (h : k < n) :
    (leBytes n v)[k]'(by simpa) = BitVec.ofNat 8 (v / 256 ^ k) := by
  induction n generalizing v k with
  | zero => omega
  | succ n ih =>
    cases k with
    | zero => simp [leBytes]
    | succ k =>
      simp only [leBytes, List.getElem_cons_succ]
      rw [ih _ _ (by omega), Nat.div_div_eq_div_mul, ← Nat.pow_succ']

end Sys2Proof
end

