-- ==== Sys2Proof/Laws/Memory.lean ====
section
/-! SUPPORT. Laws of one arena: a read after a write, the frame of a write, and that every operation keeps the
canonical form. -/

namespace Sys2Proof.Machine

theorem getByte_setByte_other {a c : Nat} (m : Memory) (b : Byte) (h : c ≠ a) :
    (m.setByte a b).getByte c = m.getByte c := by
  induction m with
  | nil =>
    simp only [Memory.setByte]
    split <;> simp [Memory.getByte, h]
  | cons cell rest ih =>
    obtain ⟨k, v⟩ := cell
    simp only [Memory.setByte]
    split
    · split <;> simp [Memory.getByte, h]
    · split
      · subst a
        split <;> simp [Memory.getByte, h]
      · simp [Memory.getByte, ih]

theorem getByte_of_lt {lo a : Nat} {m : Memory} (hm : m.wfFrom lo) (h : a < lo) : m.getByte a = 0 := by
  induction m generalizing lo with
  | nil => rfl
  | cons cell rest ih =>
    obtain ⟨k, v⟩ := cell
    simp only [Memory.wfFrom, Bool.and_eq_true, decide_eq_true_eq, bne_iff_ne] at hm
    have hk : a ≠ k := by omega
    simp [Memory.getByte, hk, ih hm.2 (by omega)]

theorem getByte_setByte_same {lo : Nat} {m : Memory} (hm : m.wfFrom lo) (a : Nat) (b : Byte) :
    (m.setByte a b).getByte a = b := by
  induction m generalizing lo with
  | nil =>
    simp only [Memory.setByte]
    split <;> simp_all [Memory.getByte]
  | cons cell rest ih =>
    obtain ⟨k, v⟩ := cell
    simp only [Memory.wfFrom, Bool.and_eq_true, decide_eq_true_eq, bne_iff_ne] at hm
    simp only [Memory.setByte]
    split
    · rename_i hlt
      split
      · rename_i hb
        have hk : a ≠ k := by omega
        simp [Memory.getByte, hk, hb, getByte_of_lt hm.2 (by omega : a < k + 1)]
      · simp [Memory.getByte]
    · split
      · subst a
        split
        · rename_i hb
          simp [hb, getByte_of_lt hm.2 (by omega : k < k + 1)]
        · simp [Memory.getByte]
      · rename_i hne
        simp [Memory.getByte, hne, ih hm.2]

theorem wfFrom_mono {lo lo' : Nat} {m : Memory} (hm : m.wfFrom lo) (h : lo' ≤ lo) : m.wfFrom lo' := by
  cases m with
  | nil => rfl
  | cons cell rest =>
    simp only [Memory.wfFrom, Bool.and_eq_true, decide_eq_true_eq] at hm ⊢
    exact ⟨⟨by omega, hm.1.2⟩, hm.2⟩

theorem wfFrom_setByte {lo a : Nat} {m : Memory} (hm : m.wfFrom lo) (h : lo ≤ a) (b : Byte) :
    (m.setByte a b).wfFrom lo := by
  induction m generalizing lo with
  | nil =>
    simp only [Memory.setByte]
    split <;> simp_all [Memory.wfFrom]
  | cons cell rest ih =>
    obtain ⟨k, v⟩ := cell
    simp only [Memory.wfFrom, Bool.and_eq_true, decide_eq_true_eq, bne_iff_ne] at hm
    simp only [Memory.setByte]
    split
    · split <;> simp_all [Memory.wfFrom]
    · split
      · subst a
        split
        · exact wfFrom_mono hm.2 (by omega)
        · simp_all [Memory.wfFrom]
      · simp only [Memory.wfFrom, Bool.and_eq_true, decide_eq_true_eq, bne_iff_ne]
        exact ⟨hm.1, ih hm.2 (by omega)⟩

/-- Writing one byte keeps the canonical form. -/
theorem wf_setByte {m : Memory} (hm : m.wf) (a : Nat) (b : Byte) : (m.setByte a b).wf :=
  wfFrom_setByte hm (Nat.zero_le a) b

/-- Writing a run of bytes keeps the canonical form. -/
theorem wf_writeBytes {m : Memory} (hm : m.wf) (a : Nat) (bs : List Byte) : (m.writeBytes a bs).wf := by
  induction bs generalizing m a with
  | nil => exact hm
  | cons b bs ih => exact ih (wf_setByte hm a b) (a + 1)

theorem getByte_writeBytes_other {a c : Nat} (m : Memory) (bs : List Byte)
    (h : c < a ∨ a + bs.length ≤ c) : (m.writeBytes a bs).getByte c = m.getByte c := by
  induction bs generalizing m a with
  | nil => rfl
  | cons b bs ih =>
    simp only [List.length_cons] at h
    rw [Memory.writeBytes, ih _ (by omega), getByte_setByte_other _ _ (by omega)]

/-- A byte of the run just written reads as it was written. -/
theorem getByte_writeBytes_same {m : Memory} (hm : m.wf) (a : Nat) (bs : List Byte) (k : Nat)
    (h : k < bs.length) : (m.writeBytes a bs).getByte (a + k) = bs[k] := by
  induction bs generalizing m a k with
  | nil => simp at h
  | cons b bs ih =>
    rw [Memory.writeBytes]
    cases k with
    | zero =>
      rw [getByte_writeBytes_other _ _ (by omega)]
      exact getByte_setByte_same hm _ _
    | succ k =>
      have hk : k < bs.length := by simpa using h
      have := ih (wf_setByte hm a b) (a + 1) k hk
      rw [show a + (k + 1) = a + 1 + k by omega, this]
      simp

@[simp] theorem readBytes_length (m : Memory) (a n : Nat) : (m.readBytes a n).length = n := by
  induction n generalizing a with
  | zero => rfl
  | succ n ih => simp [Memory.readBytes, ih]

theorem getElem_readBytes (m : Memory) (a n k : Nat) (h : k < n) :
    (m.readBytes a n)[k]'(by simpa using h) = m.getByte (a + k) := by
  induction n generalizing a k with
  | zero => omega
  | succ n ih =>
    cases k with
    | zero => rfl
    | succ k =>
      have := ih (a + 1) k (by omega)
      simp only [Memory.readBytes, List.getElem_cons_succ, this]
      congr 1
      omega

/-- Two reads of `n` bytes agree when every byte does. -/
theorem readBytes_congr {m m' : Memory} {a a' n : Nat}
    (h : ∀ k, k < n → m.getByte (a + k) = m'.getByte (a' + k)) :
    m.readBytes a n = m'.readBytes a' n := by
  apply List.ext_getElem (by simp)
  intro k h1 _
  have hk : k < n := by simpa using h1
  rw [getElem_readBytes _ _ _ _ hk, getElem_readBytes _ _ _ _ hk, h k hk]

/-- A read of a run just written gives the run. -/
theorem readBytes_writeBytes {m : Memory} (hm : m.wf) (a : Nat) (bs : List Byte) :
    (m.writeBytes a bs).readBytes a bs.length = bs := by
  apply List.ext_getElem (by simp)
  intro k h1 h2
  rw [getElem_readBytes _ _ _ _ h2, getByte_writeBytes_same hm _ _ _ h2]

/-- A read that meets no byte of a write gives what it gave before. -/
theorem readBytes_writeBytes_other (m : Memory) {a c n : Nat} (bs : List Byte)
    (h : c + n ≤ a ∨ a + bs.length ≤ c) : (m.writeBytes a bs).readBytes c n = m.readBytes c n :=
  readBytes_congr fun k hk => getByte_writeBytes_other _ _ (by omega)

theorem readBytes_append (m : Memory) (a n k : Nat) :
    m.readBytes a (n + k) = m.readBytes a n ++ m.readBytes (a + n) k := by
  induction n generalizing a with
  | zero => simp [Memory.readBytes]
  | succ n ih =>
    rw [show n + 1 + k = (n + k) + 1 by omega, Memory.readBytes, ih, Memory.readBytes,
      show a + (n + 1) = a + 1 + n by omega]
    rfl

theorem readLE_lt (m : Memory) (a n : Nat) : m.readLE a n < modulus n := by
  have := leValue_lt (m.readBytes a n)
  rwa [readBytes_length] at this

/-- Writing back the number read gives the bytes read. -/
theorem leBytes_readLE (m : Memory) (a n : Nat) : leBytes n (m.readLE a n) = m.readBytes a n := by
  have := leBytes_leValue (m.readBytes a n)
  rwa [readBytes_length] at this

theorem all_setByte {p : Host.Cell → Bool} {m : Memory} {a : Nat} {b : Byte} (hm : m.all p)
    (h : ∀ v, p (a, v)) : (m.setByte a b).all p := by
  induction m with
  | nil =>
    simp only [Memory.setByte]
    split <;> simp [h]
  | cons cell rest ih =>
    obtain ⟨k, v⟩ := cell
    simp only [List.all_cons, Bool.and_eq_true] at hm
    simp only [Memory.setByte]
    split
    · split <;> simp only [List.all_cons, Bool.and_eq_true, hm, h, and_self]
    · split
      · split <;> simp only [List.all_cons, Bool.and_eq_true, hm, h, and_self]
      · simp only [List.all_cons, Bool.and_eq_true, hm.1, ih hm.2, and_self]

/-- A property of listed addresses survives a write that stays where it holds. -/
theorem all_writeBytes {p : Host.Cell → Bool} {m : Memory} {a : Nat} {bs : List Byte} (hm : m.all p)
    (h : ∀ k, a ≤ k → k < a + bs.length → ∀ v, p (k, v)) : (m.writeBytes a bs).all p := by
  induction bs generalizing m a with
  | nil => exact hm
  | cons b bs ih =>
    simp only [List.length_cons] at h
    exact ih (all_setByte hm (h a (by omega) (by omega)))
      fun k h1 h2 v => h k (by omega) (by omega) v

/-- A write inside the capacity lists no address beyond it. -/
theorem below_writeBytes {m : Memory} {n a : Nat} {bs : List Byte} (hm : m.below n)
    (h : a + bs.length ≤ n) : (m.writeBytes a bs).below n :=
  all_writeBytes hm fun k _ hk _ => by simp; omega

theorem wfFrom_ofBytes (a : Nat) (bs : List Byte) : (Memory.ofBytes a bs).wfFrom a := by
  induction bs generalizing a with
  | nil => rfl
  | cons b bs ih =>
    simp only [Memory.ofBytes]
    split
    · exact wfFrom_mono (ih (a + 1)) (by omega)
    · simp_all [Memory.wfFrom]

/-- A loaded image is in canonical form. -/
theorem wf_ofBytes (bs : List Byte) : (Memory.ofBytes 0 bs).wf := wfFrom_ofBytes 0 bs

theorem below_ofBytes {n : Nat} (a : Nat) (bs : List Byte) (h : a + bs.length ≤ n) :
    (Memory.ofBytes a bs).below n := by
  induction bs generalizing a with
  | nil => rfl
  | cons b bs ih =>
    simp only [List.length_cons] at h
    have := ih (a + 1) (by omega)
    simp only [Memory.ofBytes]
    split
    · exact this
    · simp only [Memory.below, List.all_cons, Bool.and_eq_true, decide_eq_true_eq]
      exact ⟨by omega, this⟩

/-- Byte `k` of an image is at address `k` beyond where it was placed (rule R262). -/
theorem getByte_ofBytes (a : Nat) (bs : List Byte) (k : Nat) :
    (Memory.ofBytes a bs).getByte (a + k) = bs.getD k 0 := by
  induction bs generalizing a k with
  | nil => simp [Memory.ofBytes, Memory.getByte]
  | cons b bs ih =>
    cases k with
    | zero =>
      simp only [Memory.ofBytes]
      split
      · rename_i hb
        simp [hb, getByte_of_lt (wfFrom_ofBytes (a + 1) bs) (by omega : a < a + 1)]
      · simp [Memory.getByte]
    | succ k =>
      have hk := ih (a + 1) k
      rw [show a + 1 + k = a + (k + 1) by omega] at hk
      simp only [Memory.ofBytes]
      split
      · simpa using hk
      · simpa [Memory.getByte] using hk

theorem wfFrom_ext {lo : Nat} {m m' : Memory} (hm : m.wfFrom lo) (hm' : m'.wfFrom lo)
    (h : ∀ a, m.getByte a = m'.getByte a) : m = m' := by
  induction m generalizing lo m' with
  | nil =>
    cases m' with
    | nil => rfl
    | cons cell rest =>
      obtain ⟨k, v⟩ := cell
      simp only [Memory.wfFrom, Bool.and_eq_true, decide_eq_true_eq, bne_iff_ne] at hm'
      have := h k
      simp [Memory.getByte] at this
      exact absurd this.symm hm'.1.2
  | cons cell rest ih =>
    obtain ⟨k, v⟩ := cell
    simp only [Memory.wfFrom, Bool.and_eq_true, decide_eq_true_eq, bne_iff_ne] at hm
    cases m' with
    | nil =>
      have := h k
      simp [Memory.getByte] at this
      exact absurd this hm.1.2
    | cons cell' rest' =>
      obtain ⟨k', v'⟩ := cell'
      simp only [Memory.wfFrom, Bool.and_eq_true, decide_eq_true_eq, bne_iff_ne] at hm'
      have h1 := h k
      have h2 := h k'
      simp only [Memory.getByte, if_true] at h1 h2
      have hk : k = k' := by
        rcases Nat.lt_trichotomy k k' with hlt | heq | hgt
        · rw [if_neg (by omega), getByte_of_lt hm'.2 (by omega)] at h1
          exact absurd h1 hm.1.2
        · exact heq
        · rw [if_neg (by omega), getByte_of_lt hm.2 (by omega)] at h2
          exact absurd h2.symm hm'.1.2
      subst hk
      simp only [if_true] at h1
      subst h1
      congr 1
      refine ih hm.2 hm'.2 fun a => ?_
      by_cases ha : a = k
      · subst ha
        rw [getByte_of_lt hm.2 (by omega), getByte_of_lt hm'.2 (by omega)]
      · have := h a
        simpa [Memory.getByte, ha] using this

/-- Equal contents are equal lists: the canonical form is one per contents. -/
theorem memory_ext {m m' : Memory} (hm : m.wf) (hm' : m'.wf) (h : ∀ a, m.getByte a = m'.getByte a) :
    m = m' :=
  wfFrom_ext hm hm' h

/-- A run of bytes may be written in two parts. -/
theorem writeBytes_append (m : Memory) (a : Nat) (x y : List Byte) :
    m.writeBytes a (x ++ y) = (m.writeBytes a x).writeBytes (a + x.length) y := by
  induction x generalizing m a with
  | nil => rfl
  | cons b x ih =>
    rw [List.cons_append, Memory.writeBytes, ih, Memory.writeBytes, List.length_cons]
    rw [show a + 1 + x.length = a + (x.length + 1) by omega]

end Sys2Proof.Machine
end

