-- ==== Sys2Proof/Laws/State.lean ====
section
/-! SUPPORT. One lemma per field per update of the state, and per field of the updates Machine/Ops.lean builds
from them, so that no proof unfolds a record update. -/

namespace Sys2Proof.Machine

variable (s : State)

@[simp] theorem withPc_cfg (v : Word) : (s.withPc v).cfg = s.cfg := rfl
@[simp] theorem withPc_pc (v : Word) : (s.withPc v).pc = v := rfl
@[simp] theorem withPc_fp (v : Word) : (s.withPc v).fp = s.fp := rfl
@[simp] theorem withPc_sp (v : Word) : (s.withPc v).sp = s.sp := rfl
@[simp] theorem withPc_status (v : Word) : (s.withPc v).status = s.status := rfl
@[simp] theorem withPc_err (v : Word) : (s.withPc v).err = s.err := rfl
@[simp] theorem withPc_istore (v : Word) : (s.withPc v).istore = s.istore := rfl
@[simp] theorem withPc_stack (v : Word) : (s.withPc v).stack = s.stack := rfl
@[simp] theorem withPc_mem (v : Word) : (s.withPc v).mem = s.mem := rfl

@[simp] theorem withFp_cfg (v : Word) : (s.withFp v).cfg = s.cfg := rfl
@[simp] theorem withFp_pc (v : Word) : (s.withFp v).pc = s.pc := rfl
@[simp] theorem withFp_fp (v : Word) : (s.withFp v).fp = v := rfl
@[simp] theorem withFp_sp (v : Word) : (s.withFp v).sp = s.sp := rfl
@[simp] theorem withFp_status (v : Word) : (s.withFp v).status = s.status := rfl
@[simp] theorem withFp_err (v : Word) : (s.withFp v).err = s.err := rfl
@[simp] theorem withFp_istore (v : Word) : (s.withFp v).istore = s.istore := rfl
@[simp] theorem withFp_stack (v : Word) : (s.withFp v).stack = s.stack := rfl
@[simp] theorem withFp_mem (v : Word) : (s.withFp v).mem = s.mem := rfl

@[simp] theorem withSp_cfg (v : Word) : (s.withSp v).cfg = s.cfg := rfl
@[simp] theorem withSp_pc (v : Word) : (s.withSp v).pc = s.pc := rfl
@[simp] theorem withSp_fp (v : Word) : (s.withSp v).fp = s.fp := rfl
@[simp] theorem withSp_sp (v : Word) : (s.withSp v).sp = v := rfl
@[simp] theorem withSp_status (v : Word) : (s.withSp v).status = s.status := rfl
@[simp] theorem withSp_err (v : Word) : (s.withSp v).err = s.err := rfl
@[simp] theorem withSp_istore (v : Word) : (s.withSp v).istore = s.istore := rfl
@[simp] theorem withSp_stack (v : Word) : (s.withSp v).stack = s.stack := rfl
@[simp] theorem withSp_mem (v : Word) : (s.withSp v).mem = s.mem := rfl

@[simp] theorem withStatus_cfg (v : Status) : (s.withStatus v).cfg = s.cfg := rfl
@[simp] theorem withStatus_pc (v : Status) : (s.withStatus v).pc = s.pc := rfl
@[simp] theorem withStatus_fp (v : Status) : (s.withStatus v).fp = s.fp := rfl
@[simp] theorem withStatus_sp (v : Status) : (s.withStatus v).sp = s.sp := rfl
@[simp] theorem withStatus_status (v : Status) : (s.withStatus v).status = v := rfl
@[simp] theorem withStatus_err (v : Status) : (s.withStatus v).err = s.err := rfl
@[simp] theorem withStatus_istore (v : Status) : (s.withStatus v).istore = s.istore := rfl
@[simp] theorem withStatus_stack (v : Status) : (s.withStatus v).stack = s.stack := rfl
@[simp] theorem withStatus_mem (v : Status) : (s.withStatus v).mem = s.mem := rfl

@[simp] theorem withErr_cfg (v : Option ErrorKind) : (s.withErr v).cfg = s.cfg := rfl
@[simp] theorem withErr_pc (v : Option ErrorKind) : (s.withErr v).pc = s.pc := rfl
@[simp] theorem withErr_fp (v : Option ErrorKind) : (s.withErr v).fp = s.fp := rfl
@[simp] theorem withErr_sp (v : Option ErrorKind) : (s.withErr v).sp = s.sp := rfl
@[simp] theorem withErr_status (v : Option ErrorKind) : (s.withErr v).status = s.status := rfl
@[simp] theorem withErr_err (v : Option ErrorKind) : (s.withErr v).err = v := rfl
@[simp] theorem withErr_istore (v : Option ErrorKind) : (s.withErr v).istore = s.istore := rfl
@[simp] theorem withErr_stack (v : Option ErrorKind) : (s.withErr v).stack = s.stack := rfl
@[simp] theorem withErr_mem (v : Option ErrorKind) : (s.withErr v).mem = s.mem := rfl

@[simp] theorem withIstore_cfg (v : Memory) : (s.withIstore v).cfg = s.cfg := rfl
@[simp] theorem withIstore_pc (v : Memory) : (s.withIstore v).pc = s.pc := rfl
@[simp] theorem withIstore_fp (v : Memory) : (s.withIstore v).fp = s.fp := rfl
@[simp] theorem withIstore_sp (v : Memory) : (s.withIstore v).sp = s.sp := rfl
@[simp] theorem withIstore_status (v : Memory) : (s.withIstore v).status = s.status := rfl
@[simp] theorem withIstore_err (v : Memory) : (s.withIstore v).err = s.err := rfl
@[simp] theorem withIstore_istore (v : Memory) : (s.withIstore v).istore = v := rfl
@[simp] theorem withIstore_stack (v : Memory) : (s.withIstore v).stack = s.stack := rfl
@[simp] theorem withIstore_mem (v : Memory) : (s.withIstore v).mem = s.mem := rfl

@[simp] theorem withStack_cfg (v : Memory) : (s.withStack v).cfg = s.cfg := rfl
@[simp] theorem withStack_pc (v : Memory) : (s.withStack v).pc = s.pc := rfl
@[simp] theorem withStack_fp (v : Memory) : (s.withStack v).fp = s.fp := rfl
@[simp] theorem withStack_sp (v : Memory) : (s.withStack v).sp = s.sp := rfl
@[simp] theorem withStack_status (v : Memory) : (s.withStack v).status = s.status := rfl
@[simp] theorem withStack_err (v : Memory) : (s.withStack v).err = s.err := rfl
@[simp] theorem withStack_istore (v : Memory) : (s.withStack v).istore = s.istore := rfl
@[simp] theorem withStack_stack (v : Memory) : (s.withStack v).stack = v := rfl
@[simp] theorem withStack_mem (v : Memory) : (s.withStack v).mem = s.mem := rfl

@[simp] theorem withMem_cfg (v : Memory) : (s.withMem v).cfg = s.cfg := rfl
@[simp] theorem withMem_pc (v : Memory) : (s.withMem v).pc = s.pc := rfl
@[simp] theorem withMem_fp (v : Memory) : (s.withMem v).fp = s.fp := rfl
@[simp] theorem withMem_sp (v : Memory) : (s.withMem v).sp = s.sp := rfl
@[simp] theorem withMem_status (v : Memory) : (s.withMem v).status = s.status := rfl
@[simp] theorem withMem_err (v : Memory) : (s.withMem v).err = s.err := rfl
@[simp] theorem withMem_istore (v : Memory) : (s.withMem v).istore = s.istore := rfl
@[simp] theorem withMem_stack (v : Memory) : (s.withMem v).stack = s.stack := rfl
@[simp] theorem withMem_mem (v : Memory) : (s.withMem v).mem = v := rfl

@[simp] theorem advance_cfg (k : Nat) : (s.advance k).cfg = s.cfg := rfl
@[simp] theorem advance_pc (k : Nat) : (s.advance k).pc = s.pc + BitVec.ofNat 64 k := rfl
@[simp] theorem advance_fp (k : Nat) : (s.advance k).fp = s.fp := rfl
@[simp] theorem advance_sp (k : Nat) : (s.advance k).sp = s.sp := rfl
@[simp] theorem advance_status (k : Nat) : (s.advance k).status = s.status := rfl
@[simp] theorem advance_err (k : Nat) : (s.advance k).err = s.err := rfl
@[simp] theorem advance_istore (k : Nat) : (s.advance k).istore = s.istore := rfl
@[simp] theorem advance_stack (k : Nat) : (s.advance k).stack = s.stack := rfl
@[simp] theorem advance_mem (k : Nat) : (s.advance k).mem = s.mem := rfl

@[simp] theorem jumpBy_cfg (off : Nat) : (s.jumpBy off).cfg = s.cfg := rfl
@[simp] theorem jumpBy_pc (off : Nat) : (s.jumpBy off).pc = s.pc + BitVec.ofNat 64 off := rfl
@[simp] theorem jumpBy_fp (off : Nat) : (s.jumpBy off).fp = s.fp := rfl
@[simp] theorem jumpBy_sp (off : Nat) : (s.jumpBy off).sp = s.sp := rfl
@[simp] theorem jumpBy_status (off : Nat) : (s.jumpBy off).status = s.status := rfl
@[simp] theorem jumpBy_err (off : Nat) : (s.jumpBy off).err = s.err := rfl
@[simp] theorem jumpBy_istore (off : Nat) : (s.jumpBy off).istore = s.istore := rfl
@[simp] theorem jumpBy_stack (off : Nat) : (s.jumpBy off).stack = s.stack := rfl
@[simp] theorem jumpBy_mem (off : Nat) : (s.jumpBy off).mem = s.mem := rfl

@[simp] theorem takeFault_cfg (k : ErrorKind) : (takeFault k s).cfg = s.cfg := rfl
@[simp] theorem takeFault_pc (k : ErrorKind) : (takeFault k s).pc = s.pc := rfl
@[simp] theorem takeFault_fp (k : ErrorKind) : (takeFault k s).fp = s.fp := rfl
@[simp] theorem takeFault_sp (k : ErrorKind) : (takeFault k s).sp = s.sp := rfl
@[simp] theorem takeFault_status (k : ErrorKind) : (takeFault k s).status = .illegal := rfl
@[simp] theorem takeFault_err (k : ErrorKind) : (takeFault k s).err = some k := rfl
@[simp] theorem takeFault_istore (k : ErrorKind) : (takeFault k s).istore = s.istore := rfl
@[simp] theorem takeFault_stack (k : ErrorKind) : (takeFault k s).stack = s.stack := rfl
@[simp] theorem takeFault_mem (k : ErrorKind) : (takeFault k s).mem = s.mem := rfl

@[simp] theorem takeTrap_cfg : (takeTrap s).cfg = s.cfg := rfl
@[simp] theorem takeTrap_pc : (takeTrap s).pc = s.pc + 1 := rfl
@[simp] theorem takeTrap_fp : (takeTrap s).fp = s.fp := rfl
@[simp] theorem takeTrap_sp : (takeTrap s).sp = s.sp := rfl
@[simp] theorem takeTrap_status : (takeTrap s).status = .trapped := rfl
@[simp] theorem takeTrap_err : (takeTrap s).err = s.err := rfl
@[simp] theorem takeTrap_istore : (takeTrap s).istore = s.istore := rfl
@[simp] theorem takeTrap_stack : (takeTrap s).stack = s.stack := rfl
@[simp] theorem takeTrap_mem : (takeTrap s).mem = s.mem := rfl

@[simp] theorem arena_istore : s.arena .istore = s.istore := rfl
@[simp] theorem arena_stack : s.arena .stack = s.stack := rfl
@[simp] theorem arena_mem : s.arena .mem = s.mem := rfl
@[simp] theorem capacity_istore : s.capacity .istore = s.cfg.istoreSize := rfl
@[simp] theorem capacity_stack : s.capacity .stack = s.cfg.stackSize := rfl
@[simp] theorem capacity_mem : s.capacity .mem = s.cfg.memSize := rfl
@[simp] theorem withArena_istore (m : Memory) : s.withArena m .istore = s.withIstore m := rfl
@[simp] theorem withArena_stack (m : Memory) : s.withArena m .stack = s.withStack m := rfl
@[simp] theorem withArena_mem (m : Memory) : s.withArena m .mem = s.withMem m := rfl

/-- Two states with equal fields are equal. -/
theorem State.ext_fields {s t : State} (cfg : s.cfg = t.cfg) (pc : s.pc = t.pc) (fp : s.fp = t.fp)
    (sp : s.sp = t.sp) (status : s.status = t.status) (err : s.err = t.err)
    (istore : s.istore = t.istore) (stack : s.stack = t.stack) (mem : s.mem = t.mem) : s = t := by
  cases s
  cases t
  simp_all

end Sys2Proof.Machine
end

