-- ==== Sys2Proof/Laws/Ops.lean ====
section
/-! SUPPORT. What each shared operation of Machine/Ops.lean can do, said once. -/

namespace Sys2Proof.Machine

/-- A sequence of operations succeeds exactly when each of its parts does. -/
theorem bind_ok {α β : Type} {x : Except ErrorKind α} {f : α → Except ErrorKind β} {b : β} :
    (x >>= f) = .ok b ↔ ∃ a, x = .ok a ∧ f a = .ok b := by
  cases x with
  | ok a => simp [bind, Except.bind]
  | error k => simp [bind, Except.bind]

@[simp] theorem ok_bind {α β : Type} (a : α) (f : α → Except ErrorKind β) :
    ((Except.ok a : Except ErrorKind α) >>= f) = f a := rfl

@[simp] theorem error_bind {α β : Type} (k : ErrorKind) (f : α → Except ErrorKind β) :
    ((Except.error k : Except ErrorKind α) >>= f) = .error k := rfl

@[simp] theorem pure_ok {α : Type} (a : α) : (pure a : Except ErrorKind α) = .ok a := rfl

@[simp] theorem require_true (k : ErrorKind) : require true k = .ok () := rfl

@[simp] theorem require_false (k : ErrorKind) : require false k = .error k := rfl

/-- A requirement is met exactly when its condition holds. -/
theorem require_ok {c : Bool} {k : ErrorKind} {u : Unit} : require c k = .ok u ↔ c = true := by
  cases c <;> simp

/-- What a read can answer: the little-endian number there, inside the arena. -/
theorem memRead_ok {x : Space} {a : Word} {n v : Nat} {s : State} :
    memRead x a n s = .ok v ↔ a.toNat + n ≤ s.capacity x ∧ v = (s.arena x).readLE a.toNat n := by
  unfold memRead
  split
  · rename_i h
    simp [h, eq_comm]
  · rename_i h
    simp [h]

theorem memRead_inside {x : Space} {a : Word} {n : Nat} {s : State} (h : a.toNat + n ≤ s.capacity x) :
    memRead x a n s = .ok ((s.arena x).readLE a.toNat n) := if_pos h

theorem memRead_outside {x : Space} {a : Word} {n : Nat} {s : State} (h : ¬a.toNat + n ≤ s.capacity x) :
    memRead x a n s = .error .outOfBounds := if_neg h

/-- What a store can answer: the bytes written, inside the arena. -/
theorem storeBytes_ok {x : Space} {a : Word} {bs : List Byte} {s t : State} :
    storeBytes x a bs s = .ok t ↔
      a.toNat + bs.length ≤ s.capacity x ∧ t = s.withArena ((s.arena x).writeBytes a.toNat bs) x := by
  unfold storeBytes
  split
  · rename_i h
    simp [h, eq_comm]
  · rename_i h
    simp [h]

theorem storeBytes_inside {x : Space} {a : Word} {bs : List Byte} {s : State}
    (h : a.toNat + bs.length ≤ s.capacity x) :
    storeBytes x a bs s = .ok (s.withArena ((s.arena x).writeBytes a.toNat bs) x) := if_pos h

theorem storeBytes_outside {x : Space} {a : Word} {bs : List Byte} {s : State}
    (h : ¬a.toNat + bs.length ≤ s.capacity x) : storeBytes x a bs s = .error .outOfBounds := if_neg h

@[simp] theorem settle_ok (s t : State) : settle s (.ok t) = .next t := rfl

@[simp] theorem settle_error (s : State) (k : ErrorKind) :
    settle s (.error k) = .next (takeFault k s) := rfl

/-- How an instruction ends: in the state it computed, or in the fault it raised with everything else as it
was (rule R236). -/
theorem settle_next {s t : State} {r : Except ErrorKind State} (h : settle s r = .next t) :
    r = .ok t ∨ ∃ k, r = .error k ∧ t = takeFault k s := by
  cases r with
  | ok u => exact .inl (by simpa using h)
  | error k => exact .inr ⟨k, rfl, by simpa [eq_comm] using h⟩

/-- What `resume` can do: Trapped becomes Running, any other state is unchanged (rule R207). -/
theorem resume_cases (s : State) :
    (s.status = .trapped ∧ resume s = s.withStatus .running) ∨ (s.status ≠ .trapped ∧ resume s = s) := by
  unfold resume
  cases h : s.status <;> simp

/-- A sequence of operations fails exactly when its first failing part does. -/
theorem bind_error {α β : Type} {x : Except ErrorKind α} {f : α → Except ErrorKind β} {k : ErrorKind} :
    (x >>= f) = .error k ↔ x = .error k ∨ ∃ a, x = .ok a ∧ f a = .error k := by
  cases x with
  | ok a => simp
  | error k => simp

theorem require_error {c : Bool} {k k' : ErrorKind} (h : require c k = .error k') : k' = k := by
  cases c <;> simp at h
  exact h.symm

/-- The one fault of a read. -/
theorem memRead_error {x : Space} {a : Word} {n : Nat} {s : State} {k : ErrorKind}
    (h : memRead x a n s = .error k) : k = .outOfBounds := by
  unfold memRead at h
  split at h <;> simp at h
  exact h.symm

/-- The one fault of a store. -/
theorem storeBytes_error {x : Space} {a : Word} {bs : List Byte} {s : State} {k : ErrorKind}
    (h : storeBytes x a bs s = .error k) : k = .outOfBounds := by
  unfold storeBytes at h
  split at h <;> simp at h
  exact h.symm

end Sys2Proof.Machine
end

