-- ==== Sys2Proof/Laws/Operands.lean ====
section
/-! SUPPORT. What each operation of Machine/Operands.lean can do, said once, in the words of Safety.lean. -/

namespace Sys2Proof.Machine

@[simp] theorem descrFields_size (d : Byte) : (descrFields d).size = descrSize d := rfl
@[simp] theorem descrFields_signed (d : Byte) : (descrFields d).signed = descrSigned d := rfl
@[simp] theorem descrFields_indirect (d : Byte) : (descrFields d).indirect = descrIndirect d := rfl

/-- The widths of valid descriptors (rule R84). -/
theorem size_of_valid {d : Byte} (h : validDescr d) :
    descrSize d = 1 ∨ descrSize d = 2 ∨ descrSize d = 4 ∨ descrSize d = 8 := by
  revert d
  decide

theorem size_le_of_valid {d : Byte} (h : validDescr d) : descrSize d ≤ 8 := by
  have := size_of_valid h
  omega

theorem size_pos_of_valid {d : Byte} (h : validDescr d) : 1 ≤ descrSize d := by
  have := size_of_valid h
  omega

theorem decodeDescr_ok {d : Byte} {t : Descr} :
    decodeDescr d = .ok t ↔ validDescr d = true ∧ t = descrFields d := by
  unfold decodeDescr
  split
  · rename_i h
    simp [h, eq_comm]
  · rename_i h
    simp [h]

theorem decodeDescr_valid {d : Byte} (h : validDescr d) : decodeDescr d = .ok (descrFields d) := if_pos h

theorem decodeDescr_invalid {d : Byte} (h : ¬validDescr d) :
    decodeDescr d = .error .invalidDescriptor := if_neg h

theorem decodePair_ok {d1 d2 : Byte} {t1 t2 : Descr} :
    decodePair d1 d2 = .ok (t1, t2) ↔
      (validDescr d1 = true ∧ validDescr d2 = true) ∧ t1 = descrFields d1 ∧ t2 = descrFields d2 := by
  simp only [decodePair, bind_ok, decodeDescr_ok, pure_ok, Except.ok.injEq, Prod.mk.injEq]
  constructor
  · rintro ⟨u1, ⟨h1, rfl⟩, u2, ⟨h2, rfl⟩, rfl, rfl⟩
    exact ⟨⟨h1, h2⟩, rfl, rfl⟩
  · rintro ⟨⟨h1, h2⟩, rfl, rfl⟩
    exact ⟨_, ⟨h1, rfl⟩, _, ⟨h2, rfl⟩, rfl, rfl⟩

theorem decodePair_valid {d1 d2 : Byte} (h1 : validDescr d1) (h2 : validDescr d2) :
    decodePair d1 d2 = .ok (descrFields d1, descrFields d2) :=
  decodePair_ok.mpr ⟨⟨h1, h2⟩, rfl, rfl⟩

theorem decodePair_invalid {d1 d2 : Byte} (h : ¬(validDescr d1 ∧ validDescr d2)) :
    decodePair d1 d2 = .error .invalidDescriptor := by
  by_cases h1 : validDescr d1
  · have h2 : ¬validDescr d2 := fun h2 => h ⟨h1, h2⟩
    simp [decodePair, decodeDescr_valid h1, decodeDescr_invalid h2]
  · simp [decodePair, decodeDescr_invalid h1]

theorem toNat_sub_ofNat {p : Word} {n : Nat} (h : n ≤ p.toNat) :
    (p - BitVec.ofNat 64 n).toNat = p.toNat - n := by
  have := p.isLt
  rw [BitVec.toNat_sub, BitVec.toNat_ofNat]
  omega

/-- `PopRaw` (rule R116): the number on top of the stack, or OutOfBounds. -/
theorem popRaw_eq (n : Nat) (s : State) :
    popRaw n s =
      if n ≤ s.sp.toNat ∧ s.sp.toNat ≤ s.cfg.stackSize then
        .ok (s.stack.readLE (s.sp - BitVec.ofNat 64 n).toNat n, s.withSp (s.sp - BitVec.ofNat 64 n))
      else .error .outOfBounds := by
  by_cases h1 : n ≤ s.sp.toNat
  · have hs := toNat_sub_ofNat h1
    by_cases h2 : s.sp.toNat ≤ s.cfg.stackSize
    · have h3 : (s.sp - BitVec.ofNat 64 n).toNat + n ≤ s.capacity .stack := by
        rw [hs, capacity_stack]
        omega
      simp [popRaw, h1, h2, memRead_inside h3]
    · have h3 : ¬(s.sp - BitVec.ofNat 64 n).toNat + n ≤ s.capacity .stack := by
        rw [hs, capacity_stack]
        omega
      simp [popRaw, h1, h2, memRead_outside h3]
  · simp [popRaw, h1]

@[simp] theorem operandAddr_withSp (t : Descr) (s : State) (p q : Word) :
    operandAddr t (s.withSp q) p = operandAddr t s p := rfl
@[simp] theorem operandValue_withSp (t : Descr) (s : State) (p q : Word) :
    operandValue t (s.withSp q) p = operandValue t s p := rfl
@[simp] theorem frameAddr_withSp (s : State) (off : Nat) (q : Word) :
    frameAddr (s.withSp q) off = frameAddr s off := rfl

theorem operandReady_withSp (t : Descr) (s : State) (p q : Word) :
    OperandReady t (s.withSp q) p ↔ OperandReady t s p := Iff.rfl

theorem popRaw_ready {n : Nat} {s : State} (h : n ≤ s.sp.toNat ∧ s.sp.toNat ≤ s.cfg.stackSize) :
    popRaw n s =
      .ok (s.stack.readLE (s.sp - BitVec.ofNat 64 n).toNat n, s.withSp (s.sp - BitVec.ofNat 64 n)) := by
  rw [popRaw_eq, if_pos h]

theorem popRaw_notReady {n : Nat} {s : State}
    (h : ¬(n ≤ s.sp.toNat ∧ s.sp.toNat ≤ s.cfg.stackSize)) : popRaw n s = .error .outOfBounds := by
  rw [popRaw_eq, if_neg h]

theorem belowOperand_indirect {t : Descr} (h : t.indirect = true) (p : Word) :
    belowOperand t p = p - BitVec.ofNat 64 8 := by simp [belowOperand, operandBytes, h]

theorem belowOperand_direct {t : Descr} (h : t.indirect = false) (p : Word) :
    belowOperand t p = p - BitVec.ofNat 64 t.size := by simp [belowOperand, operandBytes, h]

theorem operandAddr_indirect {t : Descr} (h : t.indirect = true) (s : State) (p : Word) :
    operandAddr t s p = frameAddr s (s.stack.readLE (p - BitVec.ofNat 64 8).toNat 8) := by
  simp [operandAddr, h, belowOperand_indirect h]

theorem operandAddr_direct {t : Descr} (h : t.indirect = false) (s : State) (p : Word) :
    operandAddr t s p = p - BitVec.ofNat 64 t.size := by
  simp [operandAddr, h, belowOperand_direct h]

/-- `PopValue` (rule R117) of an operand that can be read: its value, and `sp` below its bytes. -/
theorem popValue_ready {t : Descr} {s : State} (h : OperandReady t s s.sp) :
    popValue t s = .ok (operandValue t s s.sp, s.withSp (belowOperand t s.sp)) := by
  obtain ⟨h1, h2, h3⟩ := h
  cases hi : t.indirect
  · have h1' : t.size ≤ s.sp.toNat := by simpa [operandBytes, hi] using h1
    simp [popValue, hi, popRaw_ready ⟨h1', h2⟩, operandValue, operandAddr_direct hi,
      belowOperand_direct hi]
  · have h1' : 8 ≤ s.sp.toNat := by simpa [operandBytes, hi] using h1
    rw [operandAddr_indirect hi] at h3
    have hread := memRead_inside (x := .stack) (s := s.withSp (s.sp - BitVec.ofNat 64 8))
      (by simpa using h3)
    simp [popValue, hi, popRaw_ready ⟨h1', h2⟩, operandValue, operandAddr_indirect hi,
      belowOperand_indirect hi] at hread ⊢
    simp [hread]

/-- `PopValue` of an operand that cannot be read: OutOfBounds. -/
theorem popValue_notReady {t : Descr} {s : State} (h : ¬OperandReady t s s.sp) :
    popValue t s = .error .outOfBounds := by
  cases hi : t.indirect
  · have h1 : ¬(t.size ≤ s.sp.toNat ∧ s.sp.toNat ≤ s.cfg.stackSize) := by
      rintro ⟨h1, h2⟩
      refine h ⟨by simpa [operandBytes, hi] using h1, h2, ?_⟩
      rw [operandAddr_direct hi, toNat_sub_ofNat h1]
      omega
    simp [popValue, hi, popRaw_notReady h1]
  · by_cases h1 : 8 ≤ s.sp.toNat ∧ s.sp.toNat ≤ s.cfg.stackSize
    · have h3 : ¬(frameAddr s (s.stack.readLE (s.sp - BitVec.ofNat 64 8).toNat 8)).toNat + t.size ≤
          s.cfg.stackSize := by
        intro h3
        refine h ⟨by simpa [operandBytes, hi] using h1.1, h1.2, ?_⟩
        rwa [operandAddr_indirect hi]
      have hread := memRead_outside (x := .stack) (s := s.withSp (s.sp - BitVec.ofNat 64 8))
        (by simpa using h3)
      simp [popValue, hi, popRaw_ready h1] at hread ⊢
      simp [hread]
    · simp [popValue, hi, popRaw_notReady h1]

/-- Both operands of `OP d1 d2` (rule R119), when both can be read. -/
theorem popOperands_ready {t1 t2 : Descr} {s : State} (h2 : OperandReady t2 s s.sp)
    (h1 : OperandReady t1 s (belowOperand t2 s.sp)) :
    popOperands t1 t2 s =
      .ok (operandValue t1 s (belowOperand t2 s.sp), operandValue t2 s s.sp,
        s.withSp (belowOperand t1 (belowOperand t2 s.sp))) := by
  have h1' := popValue_ready (s := s.withSp (belowOperand t2 s.sp)) (t := t1) h1
  simp only [popOperands, popValue_ready h2, ok_bind, h1']
  rfl

/-- One of the operands of `OP d1 d2` cannot be read: OutOfBounds. -/
theorem popOperands_notReady {t1 t2 : Descr} {s : State}
    (h : ¬(OperandReady t2 s s.sp ∧ OperandReady t1 s (belowOperand t2 s.sp))) :
    popOperands t1 t2 s = .error .outOfBounds := by
  by_cases h2 : OperandReady t2 s s.sp
  · have h1' := popValue_notReady (s := s.withSp (belowOperand t2 s.sp)) (t := t1)
      fun h1 => h ⟨h2, h1⟩
    simp only [popOperands, popValue_ready h2, ok_bind, h1']
    rfl
  · simp only [popOperands, popValue_notReady h2]
    rfl

/-- `PushValue` (rule R118): the low `w` bytes at `sp` and `sp` past them, or OutOfBounds. -/
theorem pushValue_eq (w v : Nat) (s : State) :
    pushValue w v s =
      if s.sp.toNat + w ≤ s.cfg.stackSize then
        .ok ((s.withStack (s.stack.writeBytes s.sp.toNat (leBytes w v))).withSp
          (s.sp + BitVec.ofNat 64 w))
      else .error .outOfBounds := by
  by_cases h : s.sp.toNat + w ≤ s.cfg.stackSize
  · rw [if_pos h, pushValue, memWrite, storeBytes_inside (by simpa using h)]
    rfl
  · rw [if_neg h, pushValue, memWrite, storeBytes_outside (by simpa using h)]
    rfl

/-- An operand is at most 8 bytes of the stack. -/
theorem operandBytes_le {d : Byte} (h : validDescr d) : operandBytes (descrFields d) ≤ 8 := by
  have := size_le_of_valid h
  unfold operandBytes
  split <;> simp [this]

/-- An operand is at least as many bytes of the stack as its value. -/
theorem size_le_operandBytes {d : Byte} (h : validDescr d) :
    descrSize d ≤ operandBytes (descrFields d) := by
  have := size_le_of_valid h
  unfold operandBytes
  split <;> simp [this]

theorem belowOperand_toNat {t : Descr} {p : Word} (h : operandBytes t ≤ p.toNat) :
    (belowOperand t p).toNat = p.toNat - operandBytes t := toNat_sub_ofNat h

/-- After two operand pops a result of at most the first operand's width fits (rule R140). -/
theorem result_fits {d1 d2 : Byte} {s : State} (h : PairReady d1 d2 s) {w : Nat}
    (hw : w ≤ operandBytes (descrFields d1)) :
    (resultAddr d1 d2 s).toNat + w ≤ s.cfg.stackSize := by
  have h2 := h.right
  have h1 := h.left
  rw [resultAddr, belowOperand_toNat h1.1]
  have := h1.1
  have := belowOperand_toNat h2.1
  omega

theorem pushValue_fits {w v : Nat} {s : State} (h : s.sp.toNat + w ≤ s.cfg.stackSize) :
    pushValue w v s = .ok ((s.withStack (s.stack.writeBytes s.sp.toNat (leBytes w v))).withSp
      (s.sp + BitVec.ofNat 64 w)) := by
  rw [pushValue_eq, if_pos h]

theorem pushValue_over {w v : Nat} {s : State} (h : s.cfg.stackSize < s.sp.toNat + w) :
    pushValue w v s = .error .outOfBounds := by
  rw [pushValue_eq, if_neg (by omega)]

/-- A pop of an 8-byte offset (rule R87) that is there. -/
theorem popOffset_ready {s : State} (h : OffsetReady s s.sp) :
    popRaw 8 s = .ok (offsetValue s s.sp, s.withSp (s.sp - 8)) := popRaw_ready h

/-- A pop of an 8-byte offset that is not there. -/
theorem popOffset_notReady {s : State} (h : ¬OffsetReady s s.sp) :
    popRaw 8 s = .error .outOfBounds := popRaw_notReady h

end Sys2Proof.Machine
end

