-- ==== Sys2Proof/Laws/Control.lean ====
section
/-! SUPPORT. What the operations of Machine/Control.lean that CALL and RETURN share can do, said once. -/

namespace Sys2Proof.Machine

/-- RETURN's operand (rule R186): null for `0x00`, a decoded descriptor, or InvalidDescriptor. -/
theorem decodeReturn_cases (d : Byte) :
    (d = 0 ∧ decodeReturn d = .ok none) ∨
    (validDescr d = true ∧ decodeReturn d = .ok (some (descrFields d))) ∨
    (d ≠ 0 ∧ validDescr d = false ∧ decodeReturn d = .error .invalidDescriptor) := by
  by_cases h0 : d = 0
  · exact .inl ⟨h0, if_pos h0⟩
  · cases hv : validDescr d
    · exact .inr (.inr ⟨h0, rfl, by
        rw [decodeReturn, if_neg h0, decodeDescr_invalid (by simp [hv])]
        rfl⟩)
    · exact .inr (.inl ⟨rfl, by
        rw [decodeReturn, if_neg h0, decodeDescr_valid hv]
        rfl⟩)

/-- RETURN without a payload moves `sp` and nothing else. -/
@[simp] theorem returnStack_none (a : Nat) (s : State) :
    returnStack none a s = .ok (s.withSp (BitVec.ofNat 64 a + s.fp)) := rfl

/-- RETURN with a payload that can be read: the payload is pushed at the new `sp`. -/
theorem returnStack_some {t : Descr} {s : State} (h : OperandReady t s s.sp) (a : Nat) :
    returnStack (some t) a s =
      pushValue t.size (operandValue t s s.sp) (s.withSp (BitVec.ofNat 64 a + s.fp)) := by
  simp only [returnStack, popValue_ready h, ok_bind]
  rfl

/-- RETURN with a payload that cannot be read. -/
theorem returnStack_notReady {t : Descr} {s : State} (h : ¬OperandReady t s s.sp) (a : Nat) :
    returnStack (some t) a s = .error .outOfBounds := by
  simp only [returnStack, popValue_notReady h]
  rfl

end Sys2Proof.Machine
end

