-- ==== Sys2Proof/Laws/Decode.lean ====
section
/-! SUPPORT. Laws of the parts of the decoder: the opcode table read both ways, runs of operand bytes and
literals. -/

namespace Sys2Proof

theorem toList_eq_map (o : OpcodeMap) : o.toList = Mnemonic.all.map o.code := rfl

theorem mem_all (m : Mnemonic) : m ∈ Mnemonic.all := by cases m <;> decide

/-- The opcode byte a lookup found is the mnemonic's own. -/
theorem code_of_lookup {o : OpcodeMap} {b : Byte} {m : Mnemonic} (h : o.lookup b = some m) :
    o.code m = b := by
  simpa using List.find?_some h

/-- No mnemonic has a byte that a lookup does not find. -/
theorem lookup_eq_none {o : OpcodeMap} {b : Byte} : o.lookup b = none ↔ b ∉ o.toList := by
  rw [OpcodeMap.lookup, List.find?_eq_none, toList_eq_map, List.mem_map]
  constructor
  · rintro h ⟨m, hm, rfl⟩
    exact h m hm (by simp)
  · intro h m hm hb
    exact h ⟨m, hm, by simpa using hb⟩

/-- An injective map finds every mnemonic by its own byte (rules R81, R89). -/
theorem lookup_code {o : OpcodeMap} (h : o.toList.Nodup) (m : Mnemonic) :
    o.lookup (o.code m) = some m := by
  cases hl : o.lookup (o.code m) with
  | none =>
    refine absurd ?_ (lookup_eq_none.mp hl)
    rw [toList_eq_map]
    exact List.mem_map_of_mem (mem_all m)
  | some m' =>
    rw [toList_eq_map] at h
    rw [List.inj_on_of_nodup_map h (mem_all m') (mem_all m) (code_of_lookup hl)]

theorem fetchBytes_length {fetch : Nat → Option Byte} {k n : Nat} {bs : List Byte}
    (h : fetchBytes fetch k n = some bs) : bs.length = n := by
  induction n generalizing k bs with
  | zero => simp_all [fetchBytes]
  | succ n ih =>
    simp only [fetchBytes] at h
    split at h
    · rename_i b cs _ hcs
      simp only [Option.some.injEq] at h
      simp [← h, ih hcs]
    · simp at h

/-- A run of operand bytes is fetched exactly when each of them is there. -/
theorem fetchBytes_eq_some {fetch : Nat → Option Byte} {k : Nat} {bs : List Byte} :
    fetchBytes fetch k bs.length = some bs ↔ ∀ j (h : j < bs.length), fetch (k + j) = some bs[j] := by
  induction bs generalizing k with
  | nil => simp [fetchBytes]
  | cons b bs ih =>
    change fetchBytes fetch k (bs.length + 1) = some (b :: bs) ↔ _
    rw [fetchBytes]
    constructor
    · intro h
      split at h
      · rename_i c cs hc hcs
        simp only [Option.some.injEq, List.cons.injEq] at h
        obtain ⟨rfl, rfl⟩ := h
        intro j hj
        cases j with
        | zero => exact hc
        | succ j =>
          rw [show k + (j + 1) = k + 1 + j by omega]
          exact ih.mp hcs j _
      · simp at h
    · intro h
      have h0 : fetch k = some b := h 0 (by simp)
      have hs : fetchBytes fetch (k + 1) bs.length = some bs := ih.mpr fun j hj => by
        rw [show k + 1 + j = k + (j + 1) by omega]
        exact h (j + 1) (by simpa using hj)
      rw [h0, hs]

/-- One missing byte and the whole run is missing. -/
theorem fetchBytes_eq_none {fetch : Nat → Option Byte} {k n j : Nat} (hj : j < n)
    (h : fetch (k + j) = none) : fetchBytes fetch k n = none := by
  cases hb : fetchBytes fetch k n with
  | none => rfl
  | some bs =>
    obtain rfl := fetchBytes_length hb
    rw [fetchBytes_eq_some.mp hb j hj] at h
    simp at h

/-- What a fetched literal is: no zero byte in it, each of its bytes there, and a zero byte after it (rule
R88). -/
theorem fetchLiteral_some {fetch : Nat → Option Byte} {fuel k : Nat} {bs : List Byte}
    (h : fetchLiteral fetch fuel k = some bs) :
    (∀ b ∈ bs, b ≠ 0) ∧ ∀ j (hj : j < (bs ++ [0]).length), fetch (k + j) = some (bs ++ [0])[j] := by
  induction fuel generalizing k bs with
  | zero => simp [fetchLiteral] at h
  | succ fuel ih =>
    simp only [fetchLiteral] at h
    split at h
    · simp at h
    · rename_i b hb
      split at h
      · rename_i hz
        simp only [Option.some.injEq] at h
        subst h
        refine ⟨by simp, fun j hj => ?_⟩
        obtain rfl : j = 0 := by simpa using hj
        simpa [beq_iff_eq.mp hz] using hb
      · rename_i hz
        obtain ⟨cs, hcs, rfl⟩ := Option.map_eq_some_iff.mp h
        obtain ⟨h1, h2⟩ := ih hcs
        refine ⟨by simpa using ⟨by simpa using hz, h1⟩, fun j hj => ?_⟩
        cases j with
        | zero => simpa using hb
        | succ j =>
          rw [show k + (j + 1) = k + 1 + j by omega]
          simpa using h2 j (by simpa using hj)

/-- A literal is fetched when its bytes and the zero byte after it are there (rule R88). -/
theorem fetchLiteral_eq_some {fetch : Nat → Option Byte} {fuel k : Nat} {bs : List Byte}
    (hz : ∀ b ∈ bs, b ≠ 0) (hf : bs.length < fuel)
    (h : ∀ j (hj : j < (bs ++ [0]).length), fetch (k + j) = some (bs ++ [0])[j]) :
    fetchLiteral fetch fuel k = some bs := by
  induction bs generalizing fuel k with
  | nil =>
    obtain ⟨fuel, rfl⟩ : ∃ f, fuel = f + 1 := ⟨fuel - 1, by simp at hf; omega⟩
    have h0 : fetch k = some 0 := h 0 (by simp)
    simp [fetchLiteral, h0]
  | cons b bs ih =>
    obtain ⟨fuel, rfl⟩ : ∃ f, fuel = f + 1 := ⟨fuel - 1, by omega⟩
    have h0 : fetch k = some b := h 0 (by simp)
    have hb : ¬b = 0#8 := by simpa using hz b (by simp)
    have hs := ih (fuel := fuel) (k := k + 1) (fun c hc => hz c (by simp [hc]))
      (by simpa using hf) fun j hj => by
        rw [show k + 1 + j = k + (j + 1) by omega]
        simpa using h (j + 1) (by simpa using hj)
    simp [fetchLiteral, h0, hb, hs]

/-- A literal cut short by a missing byte, no zero byte before it, is no literal. -/
theorem fetchLiteral_eq_none {fetch : Nat → Option Byte} {fuel k n : Nat}
    (hz : ∀ j < n, fetch (k + j) ≠ some 0) (h : fetch (k + n) = none) :
    fetchLiteral fetch fuel k = none := by
  induction fuel generalizing k n with
  | zero => rfl
  | succ fuel ih =>
    cases n with
    | zero =>
      have h0 : fetch k = none := h
      simp [fetchLiteral, h0]
    | succ n =>
      have h0 : fetch k ≠ some 0 := hz 0 (by omega)
      have hs : fetchLiteral fetch fuel (k + 1) = none := ih (n := n)
        (fun j hj => by
          rw [show k + 1 + j = k + (j + 1) by omega]
          exact hz (j + 1) (by omega))
        (by rwa [show k + 1 + n = k + (n + 1) by omega])
      cases hf : fetch k with
      | none => simp [fetchLiteral, hf]
      | some b =>
        have hb : ¬b = 0#8 := fun hb => h0 (by simp [hf, hb])
        simp [fetchLiteral, hf, hb, hs]

end Sys2Proof
end

