-- ==== Sys2Proof/Laws/Effects.lean ====
section
/-! SUPPORT. How the effect of an instruction on the stack arena is shown: from a state that equals the old one
but for what is named. -/

namespace Sys2Proof.Machine

/-- The effect of an instruction that stores nothing. -/
theorem stackEffect_of_unwritten {s t : State} {pc sp fp : Word} (hpc : t.pc = pc) (hsp : t.sp = sp)
    (hfp : t.fp = fp) (hstack : t.stack = s.stack) (histore : t.istore = s.istore) (hmem : t.mem = s.mem)
    (hstatus : t.status = s.status) (herr : t.err = s.err) (hcfg : t.cfg = s.cfg) :
    StackEffect s t pc sp fp 0 [] :=
  ⟨hpc, hsp, hfp, rfl, fun _ _ => by rw [hstack], histore, hmem, hstatus, herr, hcfg⟩

/-- The effect of an instruction that stores one run of bytes. -/
theorem stackEffect_of_written {s t : State} {pc sp fp : Word} {lo : Nat} {bytes : List Byte}
    (hwf : s.stack.wf) (hpc : t.pc = pc) (hsp : t.sp = sp) (hfp : t.fp = fp)
    (hstack : t.stack = s.stack.writeBytes lo bytes) (histore : t.istore = s.istore)
    (hmem : t.mem = s.mem) (hstatus : t.status = s.status) (herr : t.err = s.err)
    (hcfg : t.cfg = s.cfg) : StackEffect s t pc sp fp lo bytes :=
  ⟨hpc, hsp, hfp, by rw [hstack, readBytes_writeBytes hwf],
    fun _ ha => by rw [hstack, getByte_writeBytes_other _ _ ha], histore, hmem, hstatus, herr, hcfg⟩

end Sys2Proof.Machine
end

