-- ==== Sys2Proof/Laws/PerInstr.lean ====
section
/-! SUPPORT. Statements about every instruction as syntax, one lemma per constructor. Family `EncodeLength`: the
encoder writes exactly the instruction's encoded length (rule R82). -/

namespace Sys2Proof.Laws

/-- The bytes of `i` are `len` many under every opcode map (rule R82). -/
def EncodeLength.Statement (i : Instr) : Prop :=
  ∀ o : OpcodeMap, (encode o i).length = i.length

theorem EncodeLength.halt : EncodeLength.Statement .halt := fun _ => rfl

theorem EncodeLength.ecall : EncodeLength.Statement .ecall := fun _ => rfl

theorem EncodeLength.push (d : Byte) (imm : Nat) : EncodeLength.Statement (.push d imm) := fun _ => by
  simp [encode, encodeOperands, Instr.length]
  omega

theorem EncodeLength.pop (d : Byte) : EncodeLength.Statement (.pop d) := fun _ => rfl

theorem EncodeLength.assign (d1 d2 : Byte) : EncodeLength.Statement (.assign d1 d2) := fun _ => rfl

theorem EncodeLength.add (d1 d2 : Byte) : EncodeLength.Statement (.add d1 d2) := fun _ => rfl

theorem EncodeLength.sub (d1 d2 : Byte) : EncodeLength.Statement (.sub d1 d2) := fun _ => rfl

theorem EncodeLength.and (d1 d2 : Byte) : EncodeLength.Statement (.and d1 d2) := fun _ => rfl

theorem EncodeLength.or (d1 d2 : Byte) : EncodeLength.Statement (.or d1 d2) := fun _ => rfl

theorem EncodeLength.xor (d1 d2 : Byte) : EncodeLength.Statement (.xor d1 d2) := fun _ => rfl

theorem EncodeLength.mul (d1 d2 : Byte) : EncodeLength.Statement (.mul d1 d2) := fun _ => rfl

theorem EncodeLength.shl (d1 d2 : Byte) : EncodeLength.Statement (.shl d1 d2) := fun _ => rfl

theorem EncodeLength.shr (d1 d2 : Byte) : EncodeLength.Statement (.shr d1 d2) := fun _ => rfl

theorem EncodeLength.eql (d1 d2 : Byte) : EncodeLength.Statement (.eql d1 d2) := fun _ => rfl

theorem EncodeLength.neq (d1 d2 : Byte) : EncodeLength.Statement (.neq d1 d2) := fun _ => rfl

theorem EncodeLength.lss (d1 d2 : Byte) : EncodeLength.Statement (.lss d1 d2) := fun _ => rfl

theorem EncodeLength.gtr (d1 d2 : Byte) : EncodeLength.Statement (.gtr d1 d2) := fun _ => rfl

theorem EncodeLength.leq (d1 d2 : Byte) : EncodeLength.Statement (.leq d1 d2) := fun _ => rfl

theorem EncodeLength.geq (d1 d2 : Byte) : EncodeLength.Statement (.geq d1 d2) := fun _ => rfl

theorem EncodeLength.convert (d1 d2 : Byte) : EncodeLength.Statement (.convert d1 d2) := fun _ => rfl

theorem EncodeLength.jump : EncodeLength.Statement .jump := fun _ => rfl

theorem EncodeLength.branch (d : Byte) : EncodeLength.Statement (.branch d) := fun _ => rfl

theorem EncodeLength.call : EncodeLength.Statement .call := fun _ => rfl

theorem EncodeLength.ret (d : Byte) : EncodeLength.Statement (.ret d) := fun _ => rfl

theorem EncodeLength.storeString (literal : List Byte) : EncodeLength.Statement (.storeString literal) := fun _ => by
  simp [encode, encodeOperands, Instr.length]
  omega

theorem EncodeLength.load : EncodeLength.Statement .load := fun _ => rfl

theorem EncodeLength.store : EncodeLength.Statement .store := fun _ => rfl

theorem EncodeLength.quo : EncodeLength.Statement .quo := fun _ => rfl

theorem EncodeLength.rem : EncodeLength.Statement .rem := fun _ => rfl

theorem EncodeLength.jumpNoflag : EncodeLength.Statement .jumpNoflag := fun _ => rfl

end Sys2Proof.Laws
end

