-- ==== Sys2Proof/Laws/Step.lean ====
section
/-! SUPPORT. What a fetch and a step can do, said once. -/

namespace Sys2Proof.Machine

/-- What a fetch can answer: the byte there, or nothing beyond the store (rule R13). -/
theorem fetchByte_eq_some {s : State} {k : Nat} {b : Byte} :
    fetchByte s k = some b ↔
      (s.pc + BitVec.ofNat 64 k).toNat < s.cfg.istoreSize ∧
        b = s.istore.getByte (s.pc + BitVec.ofNat 64 k).toNat := by
  unfold fetchByte
  generalize (s.pc + BitVec.ofNat 64 k).toNat = a
  split
  · rename_i h
    simp only [Option.some.injEq, Nat.lt_of_succ_le h, true_and]
    exact eq_comm
  · simp only [reduceCtorEq, false_iff, not_and]
    omega

theorem fetchByte_eq_none {s : State} {k : Nat} :
    fetchByte s k = none ↔ s.cfg.istoreSize ≤ (s.pc + BitVec.ofNat 64 k).toNat := by
  unfold fetchByte
  generalize (s.pc + BitVec.ofNat 64 k).toNat = a
  split <;> simp <;> omega

/-- What a step can do (rule R37): hold, take the fault of the fetch, or execute the fetched instruction. -/
theorem step_cases {s t : State} (h : step s = .next t) :
    (s.status ≠ .running ∧ t = s) ∨
    (s.status = .running ∧ ∃ k, fetchInstr s = .error k ∧ t = takeFault k s) ∨
    (s.status = .running ∧ ∃ i, fetchInstr s = .ok i ∧ exec i s = .next t) := by
  unfold step at h
  cases hs : s.status <;> simp only [hs] at h
  · cases hf : fetchInstr s with
    | ok i => exact .inr (.inr ⟨rfl, i, rfl, by simpa [hf] using h⟩)
    | error k => exact .inr (.inl ⟨rfl, k, rfl, by simpa [hf, eq_comm] using h⟩)
  all_goals exact .inl ⟨by simp, by simpa [eq_comm] using h⟩

end Sys2Proof.Machine
end

