-- ==== Sys2Proof/Laws/Templates.lean ====
section
/-! SUPPORT. What the three templates of the two-operand instructions can do, said once: if one answers a
state, then its static requirements hold, both operands could be read, and the state is the one pushing the
result gives. -/

namespace Sys2Proof.Machine

/-- `v` pushed at width `w` where the operands of `OP d1 d2` were, `pc` past the three bytes. -/
def pushedResult (d1 d2 : Byte) (w v : Nat) (s : State) : State :=
  (((s.withSp (resultAddr d1 d2 s)).withStack
    (s.stack.writeBytes (resultAddr d1 d2 s).toNat (leBytes w v))).withSp
      (resultAddr d1 d2 s + BitVec.ofNat 64 w)).advance 3

theorem popOperands_ok {d1 d2 : Byte} {s u : State} {a b : Nat} :
    (validDescr d1 = true ∧ validDescr d2 = true) ∧
        popOperands (descrFields d1) (descrFields d2) s = .ok (a, b, u) ↔
      PairReady d1 d2 s ∧ a = leftValue d1 d2 s ∧ b = rightValue d2 s ∧
        u = s.withSp (resultAddr d1 d2 s) := by
  constructor
  · rintro ⟨⟨h1, h2⟩, h⟩
    by_cases hr : OperandReady (descrFields d2) s s.sp ∧
        OperandReady (descrFields d1) s (belowOperand (descrFields d2) s.sp)
    · rw [popOperands_ready hr.1 hr.2] at h
      simp only [Except.ok.injEq, Prod.mk.injEq] at h
      obtain ⟨rfl, rfl, rfl⟩ := h
      exact ⟨⟨h1, h2, hr.1, hr.2⟩, rfl, rfl, rfl⟩
    · simp [popOperands_notReady hr] at h
  · rintro ⟨hr, rfl, rfl, rfl⟩
    exact ⟨⟨hr.valid1, hr.valid2⟩, popOperands_ready hr.right hr.left⟩

theorem pushResult {d1 d2 : Byte} {s : State} (hr : PairReady d1 d2 s) {w : Nat}
    (hw : w ≤ operandBytes (descrFields d1)) (v : Nat) :
    (do let s2 ← pushValue w v (s.withSp (resultAddr d1 d2 s)); pure (s2.advance 3)) =
      (.ok (pushedResult d1 d2 w v s) : Except ErrorKind State) := by
  rw [pushValue_eq, if_pos (by simpa using result_fits hr hw)]
  rfl

theorem arithmetic_ok {f : Nat → Nat → Nat → Nat} {d1 d2 : Byte} {s t : State} :
    arithmetic f d1 d2 s = .ok t ↔
      PairReady d1 d2 s ∧ sameType (descrFields d1) (descrFields d2) = true ∧
        t = pushedResult d1 d2 (descrSize d1)
          (f (descrSize d1) (leftValue d1 d2 s) (rightValue d2 s)) s := by
  constructor
  · intro h
    simp only [arithmetic, bind_ok, Prod.exists] at h
    obtain ⟨t1, t2, hd, _, hs, a, b, u, hp, h⟩ := h
    obtain ⟨hv, rfl, rfl⟩ := decodePair_ok.mp hd
    obtain ⟨hr, rfl, rfl, rfl⟩ := popOperands_ok.mp ⟨hv, hp⟩
    have hpush := pushResult hr (size_le_operandBytes hr.valid1)
      (f (descrSize d1) (leftValue d1 d2 s) (rightValue d2 s))
    refine ⟨hr, require_ok.mp hs, ?_⟩
    have h' := hpush.symm.trans (bind_ok.mpr h)
    simpa [eq_comm] using h'
  · rintro ⟨hr, hs, rfl⟩
    have hp := (popOperands_ok.mpr ⟨hr, rfl, rfl, rfl⟩).2
    simp only [arithmetic, decodePair_valid hr.valid1 hr.valid2, ok_bind, hs, require_true, hp]
    exact pushResult hr (size_le_operandBytes hr.valid1) _

theorem comparison_ok {rel : Nat → Bool → Nat → Nat → Bool} {d1 d2 : Byte} {s t : State} :
    comparison rel d1 d2 s = .ok t ↔
      PairReady d1 d2 s ∧ sameType (descrFields d1) (descrFields d2) = true ∧
        t = pushedResult d1 d2 1 (truthByte
          (rel (descrSize d1) (descrSigned d1) (leftValue d1 d2 s) (rightValue d2 s))) s := by
  constructor
  · intro h
    simp only [comparison, bind_ok, Prod.exists] at h
    obtain ⟨t1, t2, hd, _, hs, a, b, u, hp, h⟩ := h
    obtain ⟨hv, rfl, rfl⟩ := decodePair_ok.mp hd
    obtain ⟨hr, rfl, rfl, rfl⟩ := popOperands_ok.mp ⟨hv, hp⟩
    have h1 : 1 ≤ operandBytes (descrFields d1) :=
      Nat.le_trans (size_pos_of_valid hr.valid1) (size_le_operandBytes hr.valid1)
    have hpush := pushResult hr h1 (truthByte
      (rel (descrSize d1) (descrSigned d1) (leftValue d1 d2 s) (rightValue d2 s)))
    refine ⟨hr, require_ok.mp hs, ?_⟩
    have h' := hpush.symm.trans (bind_ok.mpr h)
    simpa [eq_comm] using h'
  · rintro ⟨hr, hs, rfl⟩
    have hp := (popOperands_ok.mpr ⟨hr, rfl, rfl, rfl⟩).2
    have h1 : 1 ≤ operandBytes (descrFields d1) :=
      Nat.le_trans (size_pos_of_valid hr.valid1) (size_le_operandBytes hr.valid1)
    simp only [comparison, decodePair_valid hr.valid1 hr.valid2, ok_bind, hs, require_true, hp]
    exact pushResult hr h1 _

theorem shift_ok {f : Nat → Bool → Nat → Nat → Nat} {d1 d2 : Byte} {s t : State} :
    shift f d1 d2 s = .ok t ↔
      PairReady d1 d2 s ∧
        (descrSigned d2 && signBit (descrSize d2) (rightValue d2 s)) = false ∧
        t = pushedResult d1 d2 (descrSize d1)
          (f (descrSize d1) (descrSigned d1) (leftValue d1 d2 s) (rightValue d2 s)) s := by
  constructor
  · intro h
    simp only [shift, bind_ok, Prod.exists] at h
    obtain ⟨t1, t2, hd, a, b, u, hp, _, hs, h⟩ := h
    obtain ⟨hv, rfl, rfl⟩ := decodePair_ok.mp hd
    obtain ⟨hr, rfl, rfl, rfl⟩ := popOperands_ok.mp ⟨hv, hp⟩
    have hpush := pushResult hr (size_le_operandBytes hr.valid1)
      (f (descrSize d1) (descrSigned d1) (leftValue d1 d2 s) (rightValue d2 s))
    refine ⟨hr, (Bool.not_eq_true' _).mp (require_ok.mp hs), ?_⟩
    have h' := hpush.symm.trans (bind_ok.mpr h)
    simpa [eq_comm] using h'
  · rintro ⟨hr, hs, rfl⟩
    have hp := (popOperands_ok.mpr ⟨hr, rfl, rfl, rfl⟩).2
    simp only [shift, decodePair_valid hr.valid1 hr.valid2, ok_bind, hp, descrFields_size,
      descrFields_signed, hs, Bool.not_false, require_true]
    exact pushResult hr (size_le_operandBytes hr.valid1) _

end Sys2Proof.Machine
end

