-- ==== Sys2Proof/Tests/Slice0.lean ====
section
/-! SUPPORT. Tests. Expected results come from the worked examples and tables of the rules named in the
docstrings; the witnesses show a state and operands that meet the hypotheses of each statement of
Certificates/Slice0/Obligations.lean, at a boundary value of each of its clauses. -/

namespace Sys2Proof.Tests

open Sys2Proof Sys2Proof.Machine

/-- A small machine: 128 bytes of `I`, 64 of `S`, 32 of `M` with the window at 16 to 23. -/
def small : Config := ⟨128, 64, 32, 16, 24, OpcodeMap.default⟩

/-- A running small machine with the given registers and stack bytes. -/
def mk (pc fp sp : Word) (stack : List Byte) : State :=
  ⟨small, pc, fp, sp, .running, none, [], Memory.ofBytes 0 stack, []⟩

/-- One step with `code` at `pc`. -/
def run (code : List Byte) (s : State) : Host.Outcome State Fault Refusal := step (placeAtPc code s)

/-- `pc`, `sp` and `n` stack bytes from `lo` of a next state in which no fault was raised. -/
def seen (lo n : Nat) : Host.Outcome State Fault Refusal → Option (Nat × Nat × List Byte)
  | .next t => if t.status = .illegal then none else some (t.pc.toNat, t.sp.toNat, t.stack.readBytes lo n)
  | .fault _ => none
  | .refused _ => none

/-- The fault of a next state and its `pc`. -/
def raised : Host.Outcome State Fault Refusal → Option (ErrorKind × Nat)
  | .next t => t.err.map fun k => (k, t.pc.toNat)
  | .fault _ => none
  | .refused _ => none

/-- `fp` and the status of a next state. -/
def frame : Host.Outcome State Fault Refusal → Option (Nat × Status)
  | .next t => some (t.fp.toNat, t.status)
  | .fault _ => none
  | .refused _ => none

/-- Bytes of `M` in a next state. -/
def memory (lo n : Nat) : Host.Outcome State Fault Refusal → List Byte
  | .next t => t.mem.readBytes lo n
  | .fault _ => []
  | .refused _ => []

/-! ### Well-formedness and static validity -/

theorem test_wellFormed_refuses_wide_immediate : Instr.wellFormed (.push 0x01 256) = false := by decide
theorem test_wellFormed_takes_full_immediate : Instr.wellFormed (.push 0x01 255) = true := by decide
theorem test_wellFormed_refuses_zero_in_literal : Instr.wellFormed (.storeString [0x48, 0x00]) = false := by
  decide
theorem test_static_refuses_width_nibble : Instr.staticallyValid (.push 0x03 0) = false := by decide
theorem test_static_refuses_high_bits : Instr.staticallyValid (.branch 0x41) = false := by decide
theorem test_static_refuses_indirect_pop : Instr.staticallyValid (.pop 0x21) = false := by decide
theorem test_static_refuses_direct_assign : Instr.staticallyValid (.assign 0x01 0x01) = false := by decide
theorem test_static_refuses_width_mismatch : Instr.staticallyValid (.add 0x01 0x02) = false := by decide
theorem test_static_refuses_sign_mismatch : Instr.staticallyValid (.lss 0x01 0x11) = false := by decide
theorem test_static_refuses_second_invalid : Instr.staticallyValid (.shl 0x01 0x00) = false := by decide
theorem test_static_refuses_indirect_convert : Instr.staticallyValid (.convert 0x01 0x28) = false := by decide
theorem test_static_refuses_return_operand : Instr.staticallyValid (.ret 0x09) = false := by decide
theorem test_static_takes_null_return : Instr.staticallyValid (.ret 0x00) = true := by decide
theorem test_static_refuses_reserved : Instr.staticallyValid .quo = false := by decide

/-! ### Decoding: bytes written out from rules R82 and R90 -/

theorem test_decode_halt : decode OpcodeMap.default [0x01] = .ok .halt := by decide
theorem test_decode_ecall : decode OpcodeMap.default [0x02] = .ok .ecall := by decide
theorem test_decode_push : decode OpcodeMap.default [0x03, 0x14, 0x44, 0x33, 0x22, 0x11] =
    .ok (.push 0x14 0x11223344) := by decide
theorem test_decode_push_truncated : decode OpcodeMap.default [0x03, 0x02, 0x2C] = .error .truncated := by
  decide
theorem test_decode_pop : decode OpcodeMap.default [0x04, 0x11] = .ok (.pop 0x11) := by decide
theorem test_decode_assign : decode OpcodeMap.default [0x05, 0x22, 0x02] = .ok (.assign 0x22 0x02) := by decide
theorem test_decode_add : decode OpcodeMap.default [0x06, 0x21, 0x01] = .ok (.add 0x21 0x01) := by decide
theorem test_decode_sub : decode OpcodeMap.default [0x07, 0x21, 0x01] = .ok (.sub 0x21 0x01) := by decide
theorem test_decode_and : decode OpcodeMap.default [0x08, 0x21, 0x01] = .ok (.and 0x21 0x01) := by decide
theorem test_decode_or : decode OpcodeMap.default [0x09, 0x21, 0x01] = .ok (.or 0x21 0x01) := by decide
theorem test_decode_xor : decode OpcodeMap.default [0x0A, 0x21, 0x01] = .ok (.xor 0x21 0x01) := by decide
theorem test_decode_mul : decode OpcodeMap.default [0x0B, 0x21, 0x01] = .ok (.mul 0x21 0x01) := by decide
theorem test_decode_shl : decode OpcodeMap.default [0x0C, 0x21, 0x01] = .ok (.shl 0x21 0x01) := by decide
theorem test_decode_shr : decode OpcodeMap.default [0x0D, 0x21, 0x01] = .ok (.shr 0x21 0x01) := by decide
theorem test_decode_eql : decode OpcodeMap.default [0x0E, 0x21, 0x01] = .ok (.eql 0x21 0x01) := by decide
theorem test_decode_neq : decode OpcodeMap.default [0x0F, 0x21, 0x01] = .ok (.neq 0x21 0x01) := by decide
theorem test_decode_lss : decode OpcodeMap.default [0x10, 0x21, 0x01] = .ok (.lss 0x21 0x01) := by decide
theorem test_decode_gtr : decode OpcodeMap.default [0x11, 0x21, 0x01] = .ok (.gtr 0x21 0x01) := by decide
theorem test_decode_leq : decode OpcodeMap.default [0x12, 0x21, 0x01] = .ok (.leq 0x21 0x01) := by decide
theorem test_decode_geq : decode OpcodeMap.default [0x13, 0x21, 0x01] = .ok (.geq 0x21 0x01) := by decide
theorem test_decode_convert : decode OpcodeMap.default [0x14, 0x32, 0x18] = .ok (.convert 0x32 0x18) := by
  decide
theorem test_decode_jump : decode OpcodeMap.default [0x15] = .ok .jump := by decide
theorem test_decode_branch : decode OpcodeMap.default [0x16, 0x01] = .ok (.branch 0x01) := by decide
theorem test_decode_call : decode OpcodeMap.default [0x17] = .ok .call := by decide
theorem test_decode_return : decode OpcodeMap.default [0x18, 0x00] = .ok (.ret 0x00) := by decide
theorem test_decode_storeString : decode OpcodeMap.default [0x19, 0x48, 0x69, 0x00, 0x01] =
    .ok (.storeString [0x48, 0x69]) := by decide
theorem test_decode_empty_literal : decode OpcodeMap.default [0x19, 0x00] = .ok (.storeString []) := by decide
theorem test_decode_load : decode OpcodeMap.default [0x1A] = .ok .load := by decide
theorem test_decode_store : decode OpcodeMap.default [0x1B] = .ok .store := by decide
theorem test_decode_quo : decode OpcodeMap.default [0x1C] = .ok .quo := by decide
theorem test_decode_rem : decode OpcodeMap.default [0x1D] = .ok .rem := by decide
theorem test_decode_jumpNoflag : decode OpcodeMap.default [0x1E] = .ok .jumpNoflag := by decide
theorem test_decode_unassigned_zero : decode OpcodeMap.default [0x00] = .error .unknownOpcode := by decide
theorem test_decode_table_word : decodeTableWord 24 0x022205 = some (.assign 0x22 0x02) := by decide
theorem test_step_runs_fetch_word :
    frame (step (State.reset.withFetchWord 8 0x02)) = some (0, .trapped) := by decide

/-! ### Single steps -/

/-- Rule R130's example. -/
theorem test_push : seen 0 2 (run [0x03, 0x02, 0x2C, 0x01] (mk 0 0 0 [])) = some (4, 2, [0x2C, 0x01]) := by
  decide
/-- Rule R130: the sign and mode bits are ignored. -/
theorem test_push_ignores_mode : seen 0 1 (run [0x03, 0x31, 0x7F] (mk 0 0 0 [])) = some (3, 1, [0x7F]) := by
  decide
/-- Rule R131's example. -/
theorem test_pop : seen 0 4 (run [0x04, 0x04] (mk 0 0 4 [1, 2, 3, 4])) = some (2, 0, [1, 2, 3, 4]) := by decide
/-- Rule R131: direct only. -/
theorem test_pop_indirect : raised (run [0x04, 0x21] (mk 7 0 8 [])) = some (.invalidInstruction, 7) := by decide
/-- Rule R133's example. -/
theorem test_assign :
    seen 0x20 2 (run [0x05, 0x22, 0x02] (mk 0 0 10 [0x20, 0, 0, 0, 0, 0, 0, 0, 0xEF, 0xBE])) =
      some (3, 0, [0xEF, 0xBE]) := by decide
/-- Rules R115, R133: types must match. -/
theorem test_assign_mismatch : raised (run [0x05, 0x22, 0x12] (mk 0 0 10 [])) = some (.invalidInstruction, 0) := by
  decide
/-- Rule R141's example. -/
theorem test_add : seen 0 1 (run [0x06, 0x01, 0x01] (mk 0 0 2 [5, 7])) = some (3, 1, [0x0C]) := by decide
/-- Rule R56: offset `0xFFFFFFFFFFFFFFEF` with `fp = 17` addresses byte 0; rule R141 wraps. -/
theorem test_add_indirect : seen 18 1 (run [0x06, 0x21, 0x01] (mk 0 17 27
    [0xFF, 0, 0, 0, 0, 0, 0, 0, 0, 0, 0, 0, 0, 0, 0, 0, 0, 0, 0xEF, 0xFF, 0xFF, 0xFF, 0xFF, 0xFF, 0xFF, 0xFF,
     0x03])) = some (3, 19, [0x02]) := by decide
/-- Rule R142's example. -/
theorem test_sub : seen 0 2 (run [0x07, 0x02, 0x02] (mk 0 0 4 [0x4C, 0x1D, 0xE8, 0x03])) =
    some (3, 2, [0x64, 0x19]) := by decide
/-- Rule R142: the borrow is lost. -/
theorem test_sub_borrow : seen 0 1 (run [0x07, 0x01, 0x01] (mk 0 0 2 [0, 1])) = some (3, 1, [0xFF]) := by decide
/-- Rule R143's example. -/
theorem test_and : seen 0 1 (run [0x08, 0x01, 0x01] (mk 0 0 2 [0xF0, 0x3C])) = some (3, 1, [0x30]) := by decide
/-- Rule R144's example. -/
theorem test_or : seen 0 1 (run [0x09, 0x01, 0x01] (mk 0 0 2 [0xF0, 0x0F])) = some (3, 1, [0xFF]) := by decide
/-- Rule R145's example. -/
theorem test_xor : seen 0 2 (run [0x0A, 0x02, 0x02] (mk 0 0 4 [0xAA, 0xAA, 0x55, 0x55])) =
    some (3, 2, [0xFF, 0xFF]) := by decide
/-- Rule R146's example: −128 times −1 wraps. -/
theorem test_mul : seen 0 1 (run [0x0B, 0x11, 0x11] (mk 0 0 2 [0x80, 0xFF])) = some (3, 1, [0x80]) := by decide
/-- Rule R146's example: 300 times 25. -/
theorem test_mul_wide : seen 0 2 (run [0x0B, 0x02, 0x02] (mk 0 0 4 [0x2C, 0x01, 0x19, 0])) =
    some (3, 2, [0x4C, 0x1D]) := by decide
/-- Rule R151's example. -/
theorem test_shl : seen 0 1 (run [0x0C, 0x01, 0x01] (mk 0 0 2 [1, 7])) = some (3, 1, [0x80]) := by decide
/-- Rule R151: a count of 64 is not reduced. -/
theorem test_shl_full : seen 0 8 (run [0x0C, 0x08, 0x01] (mk 0 0 9 [1, 0, 0, 0, 0, 0, 0, 0, 64])) =
    some (3, 8, [0, 0, 0, 0, 0, 0, 0, 0]) := by decide
/-- Rule R152's example. -/
theorem test_shr : seen 0 1 (run [0x0D, 0x11, 0x01] (mk 0 0 2 [0x80, 1])) = some (3, 1, [0xC0]) := by decide
/-- Rule R153: the count `0x80` of a signed type. -/
theorem test_shr_negative : raised (run [0x0D, 0x11, 0x11] (mk 5 0 2 [0x80, 0x80])) =
    some (.negativeShiftCount, 5) := by decide
/-- Rule R162's example. -/
theorem test_eql : seen 0 1 (run [0x0E, 0x11, 0x11] (mk 0 0 2 [0xFF, 0x01])) = some (3, 1, [0]) := by decide
/-- Rule R163's example. -/
theorem test_neq : seen 0 1 (run [0x0F, 0x02, 0x02] (mk 0 0 4 [0, 0x80, 0xFF, 0x7F])) = some (3, 1, [1]) := by
  decide
/-- Rule R164's example. -/
theorem test_lss : seen 0 1 (run [0x10, 0x11, 0x11] (mk 0 0 2 [0xFF, 0x01])) = some (3, 1, [1]) := by decide
/-- Rule R164: unsigned, the same bytes. -/
theorem test_lss_unsigned : seen 0 1 (run [0x10, 0x01, 0x01] (mk 0 0 2 [0xFF, 0x01])) = some (3, 1, [0]) := by
  decide
/-- Rule R165's example. -/
theorem test_gtr : seen 0 1 (run [0x11, 0x11, 0x11] (mk 0 0 2 [0x01, 0xFF])) = some (3, 1, [1]) := by decide
/-- Rule R166's example. -/
theorem test_leq : seen 0 1 (run [0x12, 0x01, 0x01] (mk 0 0 2 [0x80, 0x7F])) = some (3, 1, [0]) := by decide
/-- Rule R167's example. -/
theorem test_geq : seen 0 1 (run [0x13, 0x12, 0x12] (mk 0 0 4 [0, 0x80, 0xFF, 0x7F])) = some (3, 1, [0]) := by
  decide
/-- Rule R171's example. -/
theorem test_convert : seen 0 8 (run [0x14, 0x11, 0x08] (mk 0 0 1 [0xFF])) =
    some (3, 8, [0xFF, 0xFF, 0xFF, 0xFF, 0xFF, 0xFF, 0xFF, 0xFF]) := by decide
/-- Rule R172: `u64 0x123456789ABCDEF0` to `u32`. -/
theorem test_convert_narrow :
    seen 0 4 (run [0x14, 0x08, 0x04] (mk 0 0 8 [0xF0, 0xDE, 0xBC, 0x9A, 0x78, 0x56, 0x34, 0x12])) =
      some (3, 4, [0xF0, 0xDE, 0xBC, 0x9A]) := by decide
/-- Rule R181's example: −61 from `0x40`. -/
theorem test_jump :
    seen 0 0 (run [0x15] (mk 0x40 0 8 [0xC3, 0xFF, 0xFF, 0xFF, 0xFF, 0xFF, 0xFF, 0xFF])) =
      some (3, 0, []) := by decide
/-- Rule R183's example, taken. -/
theorem test_branch_taken : seen 0 0 (run [0x16, 0x01] (mk 0x0D 0 9 [0, 3, 0, 0, 0, 0, 0, 0, 0])) =
    some (0x10, 0, []) := by decide
/-- Rule R183's example, not taken. -/
theorem test_branch_not_taken : seen 0 0 (run [0x16, 0x01] (mk 0x0D 0 9 [2, 3, 0, 0, 0, 0, 0, 0, 0])) =
    some (0x0F, 0, []) := by decide
/-- Rule R185's example. -/
theorem test_call : seen 0 17 (run [0x17] (mk 0x0D 0 9 [5, 2, 0, 0, 0, 0, 0, 0, 0])) =
    some (0x0F, 0x11, [5, 0, 0, 0, 0, 0, 0, 0, 0, 0x0E, 0, 0, 0, 0, 0, 0, 0]) := by decide
/-- Rule R185's example: the new frame pointer. -/
theorem test_call_frame : frame (run [0x17] (mk 0x0D 0 9 [5, 2, 0, 0, 0, 0, 0, 0, 0])) =
    some (0x11, .running) := by decide

/-- The stack of rule R186's example. -/
def callee : State := mk 0x0F 0x11 0x1A
  [5, 0, 0, 0, 0, 0, 0, 0, 0, 0x0E, 0, 0, 0, 0, 0, 0, 0, 0x0A, 0xEF, 0xFF, 0xFF, 0xFF, 0xFF, 0xFF, 0xFF, 0xFF]

/-- Rule R186's example. -/
theorem test_return : seen 0 1 (run [0x18, 0x01] callee) = some (0x0E, 1, [0x0A]) := by decide
/-- Rule R190: at top level there is no frame. -/
theorem test_return_top : raised (run [0x18, 0x00] (mk 3 0 8 [])) = some (.outOfBounds, 3) := by decide
/-- Rule R200's example. -/
theorem test_halt : frame (run [0x01] (mk 0x15 0 0 [])) = some (0, .halted) ∧
    seen 0 0 (run [0x01] (mk 0x15 0 0 [])) = some (0x16, 0, []) := by decide
/-- Rule R201's example. -/
theorem test_ecall : frame (run [0x02] (mk 0x18 0 0 [])) = some (0, .trapped) ∧
    seen 0 0 (run [0x02] (mk 0x18 0 0 [])) = some (0x19, 0, []) := by decide

/-- The state of rule R203's example, in REF. -/
def storing : State := ⟨Config.ref, 0x14, 0, 16, .running, none, [],
  Memory.ofBytes 0 [0x00, 0xFF, 0x0F], []⟩

/-- Rule R203's example. -/
theorem test_storeString : memory 0xFFF00 4 (run [0x19, 0x48, 0x69, 0x00] storing) = [0x48, 0x69, 0, 0] ∧
    seen 0 0 (run [0x19, 0x48, 0x69, 0x00] storing) = some (0x18, 8, []) := by decide
/-- Rule R203: one byte too many for the window. -/
theorem test_storeString_window :
    raised (run [0x19, 0x41, 0x42, 0x00] (mk 0 0 16 [22])) = some (.outOfBounds, 0) := by decide
/-- Rule R221's example. -/
theorem test_load : raised (run [0x1A] (mk 0 0 0 [])) = some (.unimplementedInstruction, 0) := by decide
/-- Rule R222's example. -/
theorem test_store : raised (run [0x1B] (mk 0 0 0 [])) = some (.unimplementedInstruction, 0) := by decide
/-- Rule R223's example. -/
theorem test_quo : raised (run [0x1C] (mk 0 0 0 [])) = some (.unimplementedInstruction, 0) := by decide
/-- Rule R224's example. -/
theorem test_rem : raised (run [0x1D] (mk 0 0 0 [])) = some (.unimplementedInstruction, 0) := by decide
/-- Rule R225's example. -/
theorem test_jumpNoflag : raised (run [0x1E] (mk 0 0 0 [])) = some (.unimplementedInstruction, 0) := by decide
/-- Rule R262: the zero fill is an illegal opcode. -/
theorem test_zero_fill : raised (step (mk 3 0 0 [])) = some (.invalidInstruction, 3) := by decide
/-- Rule R263's example: five bytes into a store of four. -/
theorem test_oversized_load : (load { small with istoreSize := 4 } [1, 0, 0, 0, 0]).err = some .bytecodeTooLarge := by
  decide
/-- Rule R52's example. -/
theorem test_mixed_width :
    (match memWrite .stack 0 4 0x11223344 (mk 0 0 0 []) with
      | .ok t => memRead .stack 1 2 t
      | .error k => .error k) = .ok 0x2233 := by decide

/-! ### Witnesses: the hypotheses of each statement can be met -/

theorem witness_descriptor : validDescr 0x38 = true ∧ validDescr 0x40 = false := by decide

theorem witness_encode_decode : OpcodeMap.default.toList.Nodup ∧
    Instr.wellFormed (.push 0x18 (2 ^ 64 - 1)) = true ∧ Instr.wellFormed (.storeString [0xFF]) = true := by decide

theorem witness_decode_encode : decode OpcodeMap.default [0x03, 0x01, 0xFF, 0x00] = .ok (.push 0x01 255) := by
  decide

/-- A HALT in the last byte of the store. -/
def atEnd : State := placeAtPc [0x01] (mk 127 0 0 [])

theorem witness_step_holds : ((mk 0 0 0 []).withStatus .trapped).status ≠ .running := by decide
theorem witness_step_runs : atEnd.status = .running ∧
    decodeFrom atEnd.cfg.opcodes (fetchByte atEnd) atEnd.cfg.istoreSize = .ok .halt := by decide
theorem witness_step_encoded : atEnd.cfg.WF ∧ atEnd.status = .running ∧ Instr.halt.wellFormed = true ∧
    atEnd.pc.toNat + Instr.halt.length ≤ atEnd.cfg.istoreSize ∧
    atEnd.istore.readBytes atEnd.pc.toNat Instr.halt.length = encode atEnd.cfg.opcodes .halt := by decide

theorem witness_unknown_opcode : (mk 127 0 0 []).status = .running ∧
    (mk 127 0 0 []).pc.toNat < (mk 127 0 0 []).cfg.istoreSize ∧
    (mk 127 0 0 []).istore.getByte (mk 127 0 0 []).pc.toNat ∉ (mk 127 0 0 []).cfg.opcodes.toList := by decide

theorem witness_fetch_opcode_beyond : (mk 128 0 0 []).status = .running ∧
    (mk 128 0 0 []).cfg.istoreSize ≤ (mk 128 0 0 []).pc.toNat := by decide

/-- A PUSH whose immediate lies one byte beyond the store. -/
def cut : State := placeAtPc [0x03, 0x01] (mk 126 0 0 [])

theorem witness_fetch_operand_beyond : cut.cfg.WF ∧ cut.status = .running ∧
    Instr.wellFormed (.push 0x01 9) = true ∧ cut.pc.toNat < cut.cfg.istoreSize ∧
    cut.cfg.istoreSize < cut.pc.toNat + Instr.length (.push 0x01 9) ∧
    cut.istore.readBytes cut.pc.toNat (cut.cfg.istoreSize - cut.pc.toNat) =
      (encode cut.cfg.opcodes (.push 0x01 9)).take (cut.cfg.istoreSize - cut.pc.toNat) := by decide

theorem witness_pc_advances : ∃ t, exec (.pop 0x01) (mk 0 0 1 [7]) = .next t ∧ t.status ≠ .illegal :=
  ⟨_, rfl, by decide⟩
theorem witness_pc_advances_branch : (∃ t, exec (.branch 0x01) (mk 0 0 9 [7]) = .next t ∧ t.status ≠ .illegal) ∧
    operandValue (descrFields 0x01) (mk 0 0 9 [7]) ((mk 0 0 9 [7]).sp - 8) ≠ 0 :=
  ⟨⟨_, rfl, by decide⟩, by decide⟩

theorem witness_precise : (mk 5 0 0 []).status = .running ∧
    ∃ t, step (mk 5 0 0 []) = .next t ∧ t.status = .illegal := ⟨rfl, _, rfl, by decide⟩

theorem witness_final : ((mk 0 0 0 []).withStatus .halted).status = .halted ∧
    (takeFault .outOfBounds (mk 0 0 0 [])).status = .illegal ∧
    ∀ image, HostEvent.load image ∉ [HostEvent.step, HostEvent.resume] :=
  ⟨rfl, rfl, fun _ => by simp⟩

theorem witness_kinds : (mk 0 0 0 []).status ≠ .illegal ∧
    ∃ t, exec .jump (mk 0 0 7 []) = .next t ∧ t.status = .illegal := ⟨by decide, _, rfl, by decide⟩

theorem witness_invalid_descriptors : validDescr 0x00 = false ∧ validDescr 0x40 = false ∧ (0x40 : Byte) ≠ 0 ∧
    (validDescr 0x09 = false ∨ validDescr 0x01 = false) ∧
    (validDescr 0x01 = false ∨ validDescr 0xFF = false) := by decide

theorem witness_misused_types : validDescr 0x31 = true ∧ validDescr 0x01 = true ∧
    sameType (descrFields 0x31) (descrFields 0x01) = false := by decide
theorem witness_misused_modes : validDescr 0x01 = true ∧ validDescr 0x28 = true ∧
    descrIndirect 0x01 = false ∧ descrIndirect 0x28 = true := by decide

theorem witness_unreadable : validDescr 0x01 = true ∧ ¬PairReady 0x01 0x01 (mk 0 0 1 []) ∧
    sameType (descrFields 0x01) (descrFields 0x01) = true :=
  ⟨by decide, fun h => absurd h.left (by decide), by decide⟩
theorem witness_unreadable_beyond : ¬PairReady 0x01 0x01 (mk 0 0 65 []) ∧
    ¬PairReady 0x21 0x01 (mk 0 57 9 [7]) :=
  ⟨fun h => absurd h.right (by decide), fun h => absurd h.left (by decide)⟩

theorem witness_overflow_push : validDescr 0x08 = true ∧
    (mk 0 0 57 []).cfg.stackSize < (mk 0 0 57 []).sp.toNat + descrSize 0x08 := by decide
theorem witness_underflow_pop : validDescr 0x02 = true ∧ descrIndirect 0x02 = false ∧
    (mk 0 0 1 []).sp.toNat < descrSize 0x02 ∧
    (mk 0 0 65 []).cfg.stackSize < (mk 0 0 65 []).sp.toNat := by decide
theorem witness_underflow_offset : ¬OffsetReady (mk 0 0 7 []) (mk 0 0 7 []).sp ∧
    ¬OffsetReady (mk 0 0 65 []) (mk 0 0 65 []).sp := by decide
theorem witness_unreadable_string_slot :
    ¬OperandReady (descrFields 0x28#8) (mk 0 57 8 []) (mk 0 57 8 []).sp := by decide
theorem witness_unreadable_condition : validDescr 0x01 = true ∧
    ¬OperandReady (descrFields 0x01) (mk 0 0 8 []) ((mk 0 0 8 []).sp - 8) := by decide
theorem witness_overflow_call : (mk 0 0 57 []).cfg.stackSize < (mk 0 0 57 []).sp.toNat + 8 := by decide
theorem witness_overflow_convert : validDescr 0x01 = true ∧ validDescr 0x02 = true ∧
    descrIndirect 0x02 = false ∧ ¬OperandReady (descrFields 0x01) (mk 0 0 0 []) (mk 0 0 0 []).sp ∧
    (mk 0 0 64 []).cfg.stackSize <
      (belowOperand (descrFields 0x01) (mk 0 0 64 []).sp).toNat + descrSize 0x02 := by decide
theorem witness_outside_assign : validDescr 0x21 = true ∧ validDescr 0x01 = true ∧
    sameType (descrFields 0x21) (descrFields 0x01) = true ∧ descrIndirect 0x21 = true ∧
    ¬OperandReady (descrFields 0x01) (mk 0 0 0 []) (mk 0 0 0 []).sp ∧
    ¬OffsetReady (mk 0 0 8 []) (belowOperand (descrFields 0x01) (mk 0 0 8 []).sp) ∧
    (mk 0 0 9 [64]).cfg.stackSize < (frameAddr (mk 0 0 9 [64])
      (offsetValue (mk 0 0 9 [64]) (belowOperand (descrFields 0x01) (mk 0 0 9 [64]).sp))).toNat +
        descrSize 0x21 := by decide

theorem witness_return_outside : validDescr 0x01 = true ∧ (mk 0 15 8 []).cfg.WF ∧
    (mk 0 15 8 []).fp.toNat < 16 ∧ (mk 0 65 8 []).cfg.stackSize < (mk 0 65 8 []).fp.toNat := by decide
theorem witness_return_payload_outside : validDescr 0x01 = true ∧
    ¬OperandReady (descrFields 0x01) (mk 0 16 8 []) ((mk 0 16 8 []).sp - 8) ∧
    (mk 0 64 64 []).cfg.stackSize < ((mk 0 64 64 []).fp +
      BitVec.ofNat 64 (offsetValue (mk 0 64 64 []) (mk 0 64 64 []).sp)).toNat + descrSize 0x01 := by decide

theorem witness_negative_count : PairReady 0x01 0x11 (mk 0 0 2 [1, 0x80]) ∧ descrSigned 0x11 = true ∧
    reading 0x11 (rightValue 0x11 (mk 0 0 2 [1, 0x80])) < 0 :=
  ⟨⟨by decide, by decide, by decide, by decide⟩, by decide, by decide⟩

theorem witness_string_outside :
    OperandReady (descrFields 0x28#8) (mk 0 0 16 [15]) (mk 0 0 16 [15]).sp ∧
    operandValue (descrFields 0x28#8) (mk 0 0 16 [15]) (mk 0 0 16 [15]).sp < (mk 0 0 16 [15]).cfg.devBase ∧
    OperandReady (descrFields 0x28#8) (mk 0 0 16 [24]) (mk 0 0 16 [24]).sp ∧
    (mk 0 0 16 [24]).cfg.devLimit <
      operandValue (descrFields 0x28#8) (mk 0 0 16 [24]) (mk 0 0 16 [24]).sp +
        (([] : List Byte).length + 1) := by decide

theorem witness_push : (mk 0 0 56 []).stack.wf = true ∧ validDescr 0x38 = true ∧
    (mk 0 0 56 []).sp.toNat + descrSize 0x38 ≤ (mk 0 0 56 []).cfg.stackSize := by decide
theorem witness_pop : validDescr 0x18 = true ∧ descrIndirect 0x18 = false ∧
    descrSize 0x18 ≤ (mk 0 0 8 []).sp.toNat ∧ (mk 0 0 64 []).sp.toNat ≤ (mk 0 0 64 []).cfg.stackSize ∧
    (mk 0 0 8 []).sp.toNat ≤ (mk 0 0 8 []).cfg.stackSize := by decide
theorem witness_assign : (mk 0 0 9 [63]).stack.wf = true ∧ validDescr 0x21 = true ∧ validDescr 0x01 = true ∧
    sameType (descrFields 0x21) (descrFields 0x01) = true ∧ descrIndirect 0x21 = true ∧
    OperandReady (descrFields 0x01) (mk 0 0 9 [63]) (mk 0 0 9 [63]).sp ∧
    OffsetReady (mk 0 0 9 [63]) (belowOperand (descrFields 0x01) (mk 0 0 9 [63]).sp) ∧
    (frameAddr (mk 0 0 9 [63]) (offsetValue (mk 0 0 9 [63])
      (belowOperand (descrFields 0x01) (mk 0 0 9 [63]).sp))).toNat + descrSize 0x21 ≤
        (mk 0 0 9 [63]).cfg.stackSize := by decide

/-- Both modes, at the lowest and the highest `sp`. -/
theorem witness_pair : (mk 0 0 2 [5, 7]).stack.wf = true ∧ PairReady 0x01 0x01 (mk 0 0 2 [5, 7]) ∧
    PairReady 0x38 0x38 (mk 0 56 64 []) ∧ sameType (descrFields 0x01) (descrFields 0x01) = true :=
  ⟨by decide, ⟨by decide, by decide, by decide, by decide⟩, ⟨by decide, by decide, by decide, by decide⟩,
    by decide⟩
theorem witness_shift : (mk 0 0 2 [0x80, 0x7F]).stack.wf = true ∧ PairReady 0x11 0x11 (mk 0 0 2 [0x80, 0x7F]) ∧
    0 ≤ reading 0x11 (rightValue 0x11 (mk 0 0 2 [0x80, 0x7F])) :=
  ⟨by decide, ⟨by decide, by decide, by decide, by decide⟩, by decide⟩
theorem witness_convert : (mk 0 0 57 []).stack.wf = true ∧ validDescr 0x31 = true ∧ validDescr 0x11 = true ∧
    validDescr 0x08 = true ∧ descrIndirect 0x08 = false ∧
    OperandReady (descrFields 0x11) (mk 0 0 57 []) (mk 0 0 57 []).sp ∧
    (belowOperand (descrFields 0x11) (mk 0 0 57 []).sp).toNat + descrSize 0x08 ≤
      (mk 0 0 57 []).cfg.stackSize := by decide
theorem witness_jump : OffsetReady (mk 0 0 8 []) (mk 0 0 8 []).sp ∧
    OffsetReady (mk 0 0 64 []) (mk 0 0 64 []).sp := by decide
theorem witness_branch : validDescr 0x01 = true ∧ OffsetReady (mk 0 0 9 []) (mk 0 0 9 []).sp ∧
    OperandReady (descrFields 0x01) (mk 0 0 9 []) ((mk 0 0 9 []).sp - 8) := by decide
theorem witness_call : (mk 0 0 8 []).cfg.WF ∧ (mk 0 0 8 []).stack.wf = true ∧ 8 ≤ (mk 0 0 8 []).sp.toNat ∧
    (mk 0 0 8 []).sp.toNat + 8 ≤ (mk 0 0 8 []).cfg.stackSize ∧
    (mk 0 0 56 []).sp.toNat + 8 ≤ (mk 0 0 56 []).cfg.stackSize := by decide
theorem witness_return_null : OffsetReady (mk 0 16 8 []) (mk 0 16 8 []).sp ∧ 16 ≤ (mk 0 16 8 []).fp.toNat ∧
    (mk 0 64 8 []).fp.toNat ≤ (mk 0 64 8 []).cfg.stackSize ∧
    (mk 0 16 8 []).fp.toNat ≤ (mk 0 16 8 []).cfg.stackSize := by decide
theorem witness_return_payload : callee.stack.wf = true ∧ validDescr 0x01 = true ∧ OffsetReady callee callee.sp ∧
    16 ≤ callee.fp.toNat ∧ callee.fp.toNat ≤ callee.cfg.stackSize ∧
    OperandReady (descrFields 0x01) callee (callee.sp - 8) ∧
    (callee.fp + BitVec.ofNat 64 (offsetValue callee callee.sp)).toNat + descrSize 0x01 ≤
      callee.cfg.stackSize := by decide

/-- The slot holds the first address of the window; eight bytes fill it. -/
theorem witness_storeString : (mk 0 0 16 [16]).cfg.WF ∧ (mk 0 0 16 [16]).mem.wf = true ∧
    OperandReady (descrFields 0x28#8) (mk 0 0 16 [16]) (mk 0 0 16 [16]).sp ∧
    (mk 0 0 16 [16]).cfg.devBase ≤ operandValue (descrFields 0x28#8) (mk 0 0 16 [16]) (mk 0 0 16 [16]).sp ∧
    operandValue (descrFields 0x28#8) (mk 0 0 16 [16]) (mk 0 0 16 [16]).sp +
      (([1, 2, 3, 4, 5, 6, 7] : List Byte).length + 1) ≤ (mk 0 0 16 [16]).cfg.devLimit := by decide

theorem witness_push_pop : (mk 0 0 56 []).cfg.WF ∧ (mk 0 0 56 []).stack.wf = true ∧ validDescr 0x08 = true ∧
    descrIndirect 0x08 = false ∧
    (mk 0 0 56 []).sp.toNat + descrSize 0x08 ≤ (mk 0 0 56 []).cfg.stackSize := by decide
theorem witness_sub_add : 255 < 2 ^ (8 * 1) ∧ 200 < 2 ^ (8 * 1) := by decide
theorem witness_call_return : (mk 0 0 48 []).cfg.WF ∧ (mk 0 0 48 []).stack.wf = true ∧
    8 ≤ (mk 0 0 48 []).sp.toNat ∧ (mk 0 0 48 []).sp.toNat + 16 ≤ (mk 0 0 48 []).cfg.stackSize := by decide
theorem witness_host_string : (mk 0 0 16 [16]).cfg.WF ∧ (mk 0 0 16 [16]).mem.wf = true ∧
    Instr.wellFormed (.storeString [0x48, 0x69]) = true ∧
    OperandReady (descrFields 0x28#8) (mk 0 0 16 [16]) (mk 0 0 16 [16]).sp ∧
    operandValue (descrFields 0x28#8) (mk 0 0 16 [16]) (mk 0 0 16 [16]).sp = (mk 0 0 16 [16]).cfg.devBase ∧
    (mk 0 0 16 [16]).cfg.devBase + (([0x48, 0x69] : List Byte).length + 1) ≤
      (mk 0 0 16 [16]).cfg.devLimit := by decide

/-- A trapped machine with a string in its window. -/
def trapped : State :=
  { mk 1 0 8 [16] with status := .trapped, mem := [(16, 0x48), (17, 0x69)] }

theorem witness_trapped_inv : trapped.Inv :=
  ⟨by decide, by decide, by decide, by decide, by decide, by decide, by decide, by decide, by decide⟩
theorem witness_host_read : trapped.status ≠ .running ∧ hostString trapped = [0x48, 0x69] := by decide
theorem witness_resume : trapped.status = .trapped ∧ (mk 0 0 0 []).status ≠ .trapped ∧
    (mk 0 0 0 []).status = .running := by decide

theorem witness_less : 1 ≤ 1 ∧ 0x80 < 2 ^ (8 * 1) ∧ 0x7F < 2 ^ (8 * 1) := by decide
theorem witness_shift_closed : 1 ≤ 1 ∧ 0x80 < 2 ^ (8 * 1) ∧ signBit 1 0x80 = true ∧ 8 * 1 - 1 ≤ 7 := by decide
theorem witness_access : (60 : Word).toNat + 4 ≤ (mk 0 0 0 []).capacity .stack ∧
    (mk 0 0 0 []).capacity .stack < (61 : Word).toNat + 4 := by decide
theorem witness_read_after_write : (mk 0 0 0 []).cfg.WF ∧ ((mk 0 0 0 []).arena .stack).wf = true ∧
    (∃ t, memWrite .stack 60 4 0x11223344 (mk 0 0 0 []) = .ok t) ∧ Space.mem ≠ Space.stack :=
  ⟨by decide, by decide, ⟨_, rfl⟩, by decide⟩

theorem witness_step_next : ∃ t, step (mk 0 0 0 []) = .next t := ⟨_, rfl⟩

/-- A STORE_STRING about to fill the window's first two bytes. -/
def aboutToStore : State := placeAtPc [0x19, 0x41, 0x00] (mk 0 0 16 [16])

/-- The copy overwrites a byte of the other contents, and the byte at 20 is kept. -/
theorem witness_other_memory : aboutToStore.mem.wf = true ∧
    Memory.wf [(16, 0x7F), (20, 0x01)] = true ∧
    (∃ t, step aboutToStore = .next t ∧ t.mem.getByte 16 ≠ aboutToStore.mem.getByte 16) :=
  ⟨by decide, by decide, _, rfl, by decide⟩
theorem witness_memory_write : ∃ t, exec (.storeString [0x41]) (mk 0 0 16 [16]) = .next t ∧
    t.mem.getByte 16 ≠ (mk 0 0 16 [16]).mem.getByte 16 := ⟨_, rfl, by decide⟩
theorem witness_frame_write : ∃ t, exec .call (mk 0 0 8 []) = .next t ∧ t.fp ≠ (mk 0 0 8 []).fp :=
  ⟨_, rfl, by decide⟩
theorem witness_status_write :
    (∃ t, exec .halt (mk 0 0 0 []) = .next t ∧ t.status = .halted) ∧
    (∃ t, exec .ecall (mk 0 0 0 []) = .next t ∧ t.status = .trapped) ∧
    (∃ t, exec (.pop 0x01) (mk 0 0 1 []) = .next t ∧ t.status = .running) :=
  ⟨⟨_, rfl, by decide⟩, ⟨_, rfl, by decide⟩, ⟨_, rfl, by decide⟩⟩
theorem witness_inv_step : trapped.Inv ∧ ∃ t, step trapped = .next t := ⟨witness_trapped_inv, _, rfl⟩
theorem witness_inv_running : (mk 0 0 0 []).Inv ∧ ∃ t, step (mk 0 0 0 []) = .next t :=
  ⟨⟨by decide, by decide, by decide, by decide, by decide, by decide, by decide, by decide, by decide⟩, _, rfl⟩
theorem witness_inv_events : trapped.Inv ∧ deliver trapped .resume ≠ trapped ∧
    deliver trapped (.load [0x01]) ≠ trapped := ⟨witness_trapped_inv, by decide, by decide⟩
theorem witness_every_run : Config.WF small ∧ Config.WF Config.ref := by decide
theorem witness_load : (List.replicate 128 (0x01 : Byte)).length ≤ small.istoreSize := by simp [small]
theorem witness_exact_load : (List.replicate 128 (0x01 : Byte)).length = small.istoreSize := by simp [small]
theorem witness_oversized : small.istoreSize < (List.replicate 129 (0x01 : Byte)).length := by simp [small]

end Sys2Proof.Tests
end

/-! ## What one instruction can change

An instruction ends in one of five ways: it takes a fault, it moves registers and writes `S` inside its
capacity, it halts, it traps, or it copies a string into the device window. Every rule of the whole machine
follows from this one case distinction. -/

section
namespace Sys2Proof.Machine

/-- `t` is `s` but for the registers and for writes to `S` inside its capacity. -/
structure StackOnly (s t : State) : Prop where
  /-- The parameters are kept. -/
  cfg : t.cfg = s.cfg
  /-- `I` is kept (rule R28). -/
  istore : t.istore = s.istore
  /-- `M` is kept (rule R30). -/
  mem : t.mem = s.mem
  /-- The status is kept (rule R24). -/
  status : t.status = s.status
  /-- The error cause is kept (rule R25). -/
  err : t.err = s.err
  /-- `S` stays canonical. -/
  stackWf : s.stack.wf → t.stack.wf
  /-- `S` stays inside its capacity (rule R29). -/
  stackBelow : s.stack.below s.cfg.stackSize → t.stack.below s.cfg.stackSize

namespace StackOnly

theorem refl (s : State) : StackOnly s s := ⟨rfl, rfl, rfl, rfl, rfl, id, id⟩

theorem trans {s t u : State} (h1 : StackOnly s t) (h2 : StackOnly t u) : StackOnly s u where
  cfg := h2.cfg.trans h1.cfg
  istore := h2.istore.trans h1.istore
  mem := h2.mem.trans h1.mem
  status := h2.status.trans h1.status
  err := h2.err.trans h1.err
  stackWf h := h2.stackWf (h1.stackWf h)
  stackBelow h := by
    have := h2.stackBelow
    rw [h1.cfg] at this
    exact this (h1.stackBelow h)

variable {s t : State} (h : StackOnly s t)
include h

theorem withPc (v : Word) : StackOnly s (t.withPc v) := { h with }
theorem withFp (v : Word) : StackOnly s (t.withFp v) := { h with }
theorem withSp (v : Word) : StackOnly s (t.withSp v) := { h with }
theorem advance (k : Nat) : StackOnly s (t.advance k) := h.withPc _
theorem jumpBy (off : Nat) : StackOnly s (t.jumpBy off) := h.withPc _

end StackOnly

theorem stackOnly_writeBytes {s : State} {a : Nat} {bs : List Byte}
    (h : a + bs.length ≤ s.cfg.stackSize) : StackOnly s (s.withStack (s.stack.writeBytes a bs)) where
  cfg := rfl
  istore := rfl
  mem := rfl
  status := rfl
  err := rfl
  stackWf hwf := wf_writeBytes hwf _ _
  stackBelow hb := below_writeBytes hb h

theorem stackOnly_of_memWrite {a : Word} {n v : Nat} {s t : State}
    (h : memWrite .stack a n v s = .ok t) : StackOnly s t := by
  obtain ⟨hin, rfl⟩ := storeBytes_ok.mp h
  exact stackOnly_writeBytes hin

theorem stackOnly_of_pushValue {w v : Nat} {s t : State} (h : pushValue w v s = .ok t) :
    StackOnly s t := by
  simp only [pushValue, bind_ok, pure_ok, Except.ok.injEq] at h
  obtain ⟨u, hu, rfl⟩ := h
  exact (stackOnly_of_memWrite hu).withSp _

theorem stackOnly_of_popRaw {n v : Nat} {s t : State} (h : popRaw n s = .ok (v, t)) :
    StackOnly s t := by
  rw [popRaw_eq] at h
  split at h
  · simp only [Except.ok.injEq, Prod.mk.injEq] at h
    obtain ⟨_, rfl⟩ := h
    exact (StackOnly.refl s).withSp _
  · simp at h

/-- What a `PopValue` that answers can answer (rule R117). -/
theorem popValue_ok {d : Descr} {v : Nat} {s t : State} (h : popValue d s = .ok (v, t)) :
    OperandReady d s s.sp ∧ v = operandValue d s s.sp ∧ t = s.withSp (belowOperand d s.sp) := by
  by_cases hr : OperandReady d s s.sp
  · rw [popValue_ready hr] at h
    simp only [Except.ok.injEq, Prod.mk.injEq] at h
    exact ⟨hr, h.1.symm, h.2.symm⟩
  · simp [popValue_notReady hr] at h

theorem stackOnly_of_popValue {d : Descr} {v : Nat} {s t : State} (h : popValue d s = .ok (v, t)) :
    StackOnly s t := by
  obtain ⟨_, _, rfl⟩ := popValue_ok h
  exact (StackOnly.refl s).withSp _

theorem stackOnly_of_returnStack {t : Option Descr} {a : Nat} {s u : State}
    (h : returnStack t a s = .ok u) : StackOnly s u := by
  cases t with
  | none =>
    simp only [returnStack_none, Except.ok.injEq] at h
    subst h
    exact (StackOnly.refl s).withSp _
  | some t =>
    simp only [returnStack, bind_ok, Prod.exists] at h
    obtain ⟨v, s1, hpop, hpush⟩ := h
    exact ((stackOnly_of_popValue hpop).withSp _).trans (stackOnly_of_pushValue hpush)

/-- The result of a two-operand template lies inside `S` (rule R120). -/
theorem stackOnly_pushedResult {d1 d2 : Byte} {s : State} (hr : PairReady d1 d2 s) {w : Nat}
    (hw : w ≤ operandBytes (descrFields d1)) (v : Nat) : StackOnly s (pushedResult d1 d2 w v s) := by
  have hfit : (resultAddr d1 d2 s).toNat + (leBytes w v).length ≤ s.cfg.stackSize := by
    simpa using result_fits hr hw
  have hwrite := stackOnly_writeBytes (s := s.withSp (resultAddr d1 d2 s)) hfit
  exact (((StackOnly.refl s).withSp _).trans hwrite).withSp _ |>.advance 3

/-- The state after a STORE_STRING that completes (rule R203). -/
def storedString (literal : List Byte) (s : State) : State :=
  ((s.withSp (belowOperand addressDescr s.sp)).withMem
    (s.mem.writeBytes (operandValue addressDescr s s.sp) (literal ++ [0]))).advance (2 + literal.length)

section
variable (literal : List Byte) (s : State)
@[simp] theorem storedString_cfg : (storedString literal s).cfg = s.cfg := rfl
@[simp] theorem storedString_istore : (storedString literal s).istore = s.istore := rfl
@[simp] theorem storedString_stack : (storedString literal s).stack = s.stack := rfl
@[simp] theorem storedString_status : (storedString literal s).status = s.status := rfl
@[simp] theorem storedString_err : (storedString literal s).err = s.err := rfl
@[simp] theorem storedString_mem : (storedString literal s).mem =
    s.mem.writeBytes (operandValue addressDescr s s.sp) (literal ++ [0]) := rfl
end

/-- The five ways in which executing an instruction in `s` can end. -/
inductive ExecEffect (s : State) : Instr → State → Prop where
  /-- A fault: nothing but `status` and `err` changes (rule R236). -/
  | fault (i : Instr) (k : ErrorKind) : ExecEffect s i (takeFault k s)
  /-- Only registers and `S` change. -/
  | stackOnly (i : Instr) {t : State} (h : StackOnly s t) : ExecEffect s i t
  /-- HALT (rule R200). -/
  | halt : ExecEffect s .halt ((s.withStatus .halted).advance 1)
  /-- ECALL (rule R201). -/
  | ecall : ExecEffect s .ecall (takeTrap s)
  /-- STORE_STRING into the device window (rule R203). -/
  | storeString (literal : List Byte)
      (hwin : inWindow s.cfg (operandValue addressDescr s s.sp) (literal.length + 1) = true) :
      ExecEffect s (.storeString literal) (storedString literal s)

/-- An instruction that, where it does not fault, changes only registers and `S`. -/
theorem execEffect_of_settle {i : Instr} {s t : State} {r : Except ErrorKind State}
    (h : settle s r = .next t) (hr : ∀ u, r = .ok u → StackOnly s u) : ExecEffect s i t := by
  rcases settle_next h with hok | ⟨k, _, rfl⟩
  · exact .stackOnly i (hr t hok)
  · exact .fault i k

section
variable {s t : State} {d d1 d2 : Byte}

theorem arithmetic_effect {i : Instr} {f : Nat → Nat → Nat → Nat}
    (h : settle s (arithmetic f d1 d2 s) = .next t) : ExecEffect s i t :=
  execEffect_of_settle h fun u hu => by
    obtain ⟨hr, _, rfl⟩ := arithmetic_ok.mp hu
    exact stackOnly_pushedResult hr (size_le_operandBytes hr.valid1) _

theorem comparison_effect {i : Instr} {rel : Nat → Bool → Nat → Nat → Bool}
    (h : settle s (comparison rel d1 d2 s) = .next t) : ExecEffect s i t :=
  execEffect_of_settle h fun u hu => by
    obtain ⟨hr, _, rfl⟩ := comparison_ok.mp hu
    exact stackOnly_pushedResult hr
      ((size_pos_of_valid hr.valid1).trans (size_le_operandBytes hr.valid1)) _

theorem shift_effect {i : Instr} {f : Nat → Bool → Nat → Nat → Nat}
    (h : settle s (shift f d1 d2 s) = .next t) : ExecEffect s i t :=
  execEffect_of_settle h fun u hu => by
    obtain ⟨hr, _, rfl⟩ := shift_ok.mp hu
    exact stackOnly_pushedResult hr (size_le_operandBytes hr.valid1) _

theorem execPush_effect {imm : Nat} (h : execPush d imm s = .next t) :
    ExecEffect s (.push d imm) t :=
  execEffect_of_settle h fun u hu => by
    simp only [bind_ok, pure_ok, Except.ok.injEq] at hu
    obtain ⟨_, _, s1, hpush, rfl⟩ := hu
    exact (stackOnly_of_pushValue hpush).advance _

theorem execPop_effect (h : execPop d s = .next t) : ExecEffect s (.pop d) t :=
  execEffect_of_settle h fun u hu => by
    simp only [bind_ok, Prod.exists, pure_ok, Except.ok.injEq] at hu
    obtain ⟨_, _, _, _, _, s1, hpop, rfl⟩ := hu
    exact (stackOnly_of_popRaw hpop).advance 2

theorem execAssign_effect (h : execAssign d1 d2 s = .next t) : ExecEffect s (.assign d1 d2) t :=
  execEffect_of_settle h fun u hu => by
    simp only [bind_ok, Prod.exists, pure_ok, Except.ok.injEq] at hu
    obtain ⟨_, _, _, _, _, _, _, v, s1, hpayload, off, s2, hoff, s3, hwrite, rfl⟩ := hu
    exact ((stackOnly_of_popValue hpayload).trans (stackOnly_of_popRaw hoff)).trans
      (stackOnly_of_memWrite hwrite) |>.advance 3

theorem execConvert_effect (h : execConvert d1 d2 s = .next t) : ExecEffect s (.convert d1 d2) t :=
  execEffect_of_settle h fun u hu => by
    simp only [bind_ok, Prod.exists, pure_ok, Except.ok.injEq] at hu
    obtain ⟨_, _, _, _, _, a, s1, hpop, s2, hpush, rfl⟩ := hu
    exact ((stackOnly_of_popValue hpop).trans (stackOnly_of_pushValue hpush)).advance 3

theorem execJump_effect (h : execJump s = .next t) : ExecEffect s .jump t :=
  execEffect_of_settle h fun u hu => by
    simp only [bind_ok, Prod.exists, pure_ok, Except.ok.injEq] at hu
    obtain ⟨off, s1, hoff, rfl⟩ := hu
    exact (stackOnly_of_popRaw hoff).jumpBy off

theorem execBranch_effect (h : execBranch d s = .next t) : ExecEffect s (.branch d) t :=
  execEffect_of_settle h fun u hu => by
    simp only [bind_ok, Prod.exists, pure_ok, Except.ok.injEq] at hu
    obtain ⟨_, _, off, s1, hoff, c, s2, hcond, rfl⟩ := hu
    have hpops := (stackOnly_of_popRaw hoff).trans (stackOnly_of_popValue hcond)
    split
    · exact hpops.jumpBy off
    · exact hpops.advance 2

theorem execCall_effect (h : execCall s = .next t) : ExecEffect s .call t :=
  execEffect_of_settle h fun u hu => by
    simp only [bind_ok, Prod.exists, pure_ok, Except.ok.injEq] at hu
    obtain ⟨off, s1, hoff, s2, hfp, s3, hpc, rfl⟩ := hu
    exact ((stackOnly_of_popRaw hoff).trans (stackOnly_of_pushValue hfp)).trans
      (stackOnly_of_pushValue hpc) |>.withFp _ |>.jumpBy off

theorem execReturn_effect (h : execReturn d s = .next t) : ExecEffect s (.ret d) t :=
  execEffect_of_settle h fun u hu => by
    simp only [bind_ok, Prod.exists, pure_ok, Except.ok.injEq] at hu
    obtain ⟨_, _, a, s1, hadj, _, _, _, _, s2, hmove, rfl⟩ := hu
    exact ((stackOnly_of_popRaw hadj).trans (stackOnly_of_returnStack hmove)).withPc _ |>.withFp _

theorem unimplemented_effect {i : Instr} (h : unimplemented s = .next t) : ExecEffect s i t :=
  execEffect_of_settle h fun _ hu => by simp at hu

/-- The address of STORE_STRING is a 64-bit number, so its store goes to that very address. -/
theorem storeString_address_lt (s : State) : operandValue addressDescr s s.sp < 2 ^ 64 :=
  readLE_lt _ _ 8

theorem execStoreString_effect {literal : List Byte} (h : execStoreString literal s = .next t) :
    ExecEffect s (.storeString literal) t := by
  rcases settle_next h with hok | ⟨k, _, rfl⟩
  · simp only [bind_ok, Prod.exists, pure_ok, Except.ok.injEq] at hok
    obtain ⟨a, s1, hpop, _, hwin, s2, hstore, rfl⟩ := hok
    obtain ⟨_, rfl, rfl⟩ := popValue_ok hpop
    obtain ⟨_, rfl⟩ := storeBytes_ok.mp hstore
    have haddr : (BitVec.ofNat 64 (operandValue addressDescr s s.sp)).toNat =
        operandValue addressDescr s s.sp := by
      rw [BitVec.toNat_ofNat, Nat.mod_eq_of_lt (storeString_address_lt s)]
    rw [haddr]
    exact .storeString literal (require_ok.mp hwin)
  · exact .fault _ k

end

/-- What executing an instruction can do, said once for all of them. -/
theorem exec_effect {i : Instr} {s t : State} (h : exec i s = .next t) : ExecEffect s i t := by
  cases i with
  | halt => cases h; exact .halt
  | ecall => cases h; exact .ecall
  | push d imm => exact execPush_effect h
  | pop d => exact execPop_effect h
  | assign d1 d2 => exact execAssign_effect h
  | add d1 d2 | sub d1 d2 | and d1 d2 | or d1 d2 | xor d1 d2 | mul d1 d2 => exact arithmetic_effect h
  | shl d1 d2 | shr d1 d2 => exact shift_effect h
  | eql d1 d2 | neq d1 d2 | lss d1 d2 | gtr d1 d2 | leq d1 d2 | geq d1 d2 => exact comparison_effect h
  | convert d1 d2 => exact execConvert_effect h
  | jump => exact execJump_effect h
  | branch d => exact execBranch_effect h
  | call => exact execCall_effect h
  | ret d => exact execReturn_effect h
  | storeString literal => exact execStoreString_effect h
  | load | store | quo | rem | jumpNoflag => exact unimplemented_effect h

end Sys2Proof.Machine
end

/-! ## The invariant -/

section
namespace Sys2Proof.Machine

/-- A write inside a window lists no address outside it. -/
theorem window_writeBytes {m : Memory} {base limit a : Nat} {bs : List Byte}
    (hm : m.all fun c => decide (base ≤ c.1) && decide (c.1 < limit)) (hbase : base ≤ a)
    (hlimit : a + bs.length ≤ limit) :
    (m.writeBytes a bs).all fun c => decide (base ≤ c.1) && decide (c.1 < limit) :=
  all_writeBytes hm fun k _ _ _ => by simp; omega

/-- A string that ends inside the window leaves the window's last byte zero: the copy does not reach that
byte, or its terminator lies on it (rule R207). -/
theorem lastByte_writeBytes_string {m : Memory} {a limit : Nat} {literal : List Byte} (hwf : m.wf)
    (hlast : m.getByte (limit - 1) = 0) (hfit : a + (literal.length + 1) ≤ limit) :
    (m.writeBytes a (literal ++ [0])).getByte (limit - 1) = 0 := by
  by_cases hend : a + (literal.length + 1) = limit
  · have hterm := getByte_writeBytes_same hwf a (literal ++ [0]) literal.length (by simp)
    rw [show limit - 1 = a + literal.length by omega, hterm]
    simp
  · rw [getByte_writeBytes_other _ _ (.inr (by simp; omega)), hlast]

section
variable {s t : State} (hinv : s.Inv)
include hinv

theorem inv_of_stackOnly (h : StackOnly s t) : t.Inv where
  cfg := h.cfg ▸ hinv.cfg
  istoreWf := h.istore ▸ hinv.istoreWf
  istoreBelow := h.istore ▸ h.cfg ▸ hinv.istoreBelow
  stackWf := h.stackWf hinv.stackWf
  stackBelow := h.cfg ▸ h.stackBelow hinv.stackBelow
  memWf := h.mem ▸ hinv.memWf
  memWindow := h.mem ▸ h.cfg ▸ hinv.memWindow
  lastZero := h.mem ▸ h.cfg ▸ hinv.lastZero
  errNone := h.err ▸ h.status ▸ hinv.errNone

theorem inv_takeFault (k : ErrorKind) : (takeFault k s).Inv :=
  { hinv with errNone := by simp }

/-- No error cause appears or vanishes when a machine that is not Illegal takes another status that is not. -/
theorem inv_withStatus {v : Status} (hs : s.status ≠ .illegal) (hv : v ≠ .illegal) :
    (s.withStatus v).Inv :=
  { hinv with errNone := by simp [hinv.errNone, hs, hv] }

theorem inv_withPc (v : Word) : (s.withPc v).Inv :=
  inv_of_stackOnly hinv ((StackOnly.refl s).withPc v)

theorem inv_storedString {literal : List Byte}
    (hwin : inWindow s.cfg (operandValue addressDescr s s.sp) (literal.length + 1) = true) :
    (storedString literal s).Inv := by
  simp only [inWindow, Bool.and_eq_true, decide_eq_true_eq] at hwin
  obtain ⟨hbase, hlimit⟩ := hwin
  exact { hinv with
    memWf := wf_writeBytes hinv.memWf _ _
    memWindow := window_writeBytes hinv.memWindow hbase (by simpa using hlimit)
    lastZero := lastByte_writeBytes_string hinv.memWf hinv.lastZero hlimit }

/-- Every instruction a running machine executes keeps the invariant. -/
theorem inv_exec {i : Instr} (hrun : s.status = .running) (h : exec i s = .next t) : t.Inv := by
  have hok : s.status ≠ .illegal := by simp [hrun]
  cases exec_effect h with
  | fault _ k => exact inv_takeFault hinv k
  | stackOnly _ hstack => exact inv_of_stackOnly hinv hstack
  | halt => exact inv_withPc (inv_withStatus hinv hok (by simp)) _
  | ecall => exact inv_withPc (inv_withStatus hinv hok (by simp)) _
  | storeString literal hwin => exact inv_storedString hinv hwin

theorem inv_step (h : step s = .next t) : t.Inv := by
  rcases step_cases h with ⟨_, rfl⟩ | ⟨_, k, _, rfl⟩ | ⟨hrun, i, _, hexec⟩
  · exact hinv
  · exact inv_takeFault hinv k
  · exact inv_exec hinv hrun hexec

theorem inv_resume : (resume s).Inv := by
  rcases resume_cases s with ⟨htrap, hres⟩ | ⟨_, hres⟩
  · rw [hres]
    exact inv_withStatus hinv (by simp [htrap]) (by simp)
  · rwa [hres]

end

/-- A machine whose `S` and `M` are empty meets the invariant when its `I` and its error cause do. -/
theorem inv_of_empty {c : Config} {pc fp sp : Word} {status : Status} {err : Option ErrorKind}
    {istore : Memory} (hc : c.WF) (hwf : istore.wf) (hbelow : istore.below c.istoreSize)
    (herr : err = none ↔ status ≠ .illegal) :
    State.Inv ⟨c, pc, fp, sp, status, err, istore, [], []⟩ :=
  ⟨hc, hwf, hbelow, rfl, rfl, rfl, rfl, rfl, herr⟩

theorem inv_load {c : Config} (hc : c.WF) (image : List Byte) : (load c image).Inv := by
  unfold load
  split
  · exact inv_of_empty hc (wf_ofBytes image) (below_ofBytes 0 image (by omega)) (by simp)
  · exact inv_of_empty hc rfl rfl (by simp)

theorem inv_deliver {s : State} (hinv : s.Inv) (e : HostEvent) : (deliver s e).Inv := by
  cases e with
  | load image => exact inv_load hinv.cfg image
  | step =>
    simp only [deliver]
    split
    · next t ht => exact inv_step hinv ht
    · exact hinv
    · exact hinv
  | resume => exact inv_resume hinv

theorem inv_deliverAll {s : State} (hinv : s.Inv) (events : List HostEvent) :
    (deliverAll s events).Inv := by
  induction events generalizing s with
  | nil => exact hinv
  | cons e events ih => exact ih (inv_deliver hinv e)

/-- Settles O54: each of the ways in which a step can end keeps the invariant. -/
theorem stepKeepsTheInvariant : Obligations.StepKeepsTheInvariant :=
  fun _ _ hinv hstep => inv_step hinv hstep

/-- Settles O56, by the three events of the boundary. -/
theorem hostEventsKeepTheInvariant : Obligations.HostEventsKeepTheInvariant :=
  fun _ e hinv => inv_deliver hinv e

/-- Settles O57, by induction on the events after the first load. -/
theorem everyRunMeetsTheInvariant : Obligations.EveryRunMeetsTheInvariant :=
  fun _ image events hc => inv_deliverAll (inv_load hc image) events

/-- Settles O55: a load leaves `S` and `M` empty, and `State.reset` is the load of the empty image. -/
theorem resetMeetsTheInvariant : Obligations.ResetMeetsTheInvariant :=
  ⟨fun _ image hc => inv_load hc image, inv_load (c := Config.ref) (by decide) []⟩

end Sys2Proof.Machine
end

/-! ## The order of the readings -/

section
namespace Sys2Proof

theorem sval_of_signBit {w v : Nat} (h : signBit w v = true) : sval w v = (v : Int) - (modulus w : Int) :=
  if_pos h

theorem sval_of_not_signBit {w v : Nat} (h : signBit w v = false) : sval w v = (v : Int) := by
  simp [sval, h]

namespace Machine

theorem less_unsigned (w x y : Nat) : less w false x y = true ↔ x < y := by simp [less]

/-- Sign bit first, then raw order, is the order of the two's-complement readings (rule R168). -/
theorem less_signed {w x y : Nat} (hx : x < modulus w) (hy : y < modulus w) :
    less w true x y = true ↔ sval w x < sval w y := by
  cases hsx : signBit w x <;> cases hsy : signBit w y
  case false.false =>
    rw [sval_of_not_signBit hsx, sval_of_not_signBit hsy]
    simp [less, hsx, hsy]
  case false.true =>
    rw [sval_of_not_signBit hsx, sval_of_signBit hsy]
    have hge : ¬(x : Int) < (y : Int) - (modulus w : Int) := by omega
    simp [less, hsx, hsy, hge]
  case true.false =>
    rw [sval_of_signBit hsx, sval_of_not_signBit hsy]
    have hlt : (x : Int) - (modulus w : Int) < (y : Int) := by omega
    simp [less, hsx, hsy, hlt]
  case true.true =>
    rw [sval_of_signBit hsx, sval_of_signBit hsy]
    simp [less, hsx, hsy]

/-- Settles O45, by the four combinations of the sign bits. -/
theorem lessIsTheOrderOfTheReadings : Obligations.LessIsTheOrderOfTheReadings :=
  fun w x y _ hx hy => ⟨less_signed hx hy, less_unsigned w x y⟩

end Machine
end Sys2Proof
end

/-! ## Reads after writes -/

section
namespace Sys2Proof.Machine

@[simp] theorem withArena_cfg (s : State) (m : Memory) (x : Space) : (s.withArena m x).cfg = s.cfg := by
  cases x <;> rfl

@[simp] theorem capacity_withArena (s : State) (m : Memory) (x y : Space) :
    (s.withArena m x).capacity y = s.capacity y := by
  cases x <;> rfl

@[simp] theorem arena_withArena_same (s : State) (m : Memory) (x : Space) :
    (s.withArena m x).arena x = m := by
  cases x <;> rfl

/-- The three arenas are disjoint (rule R32). -/
theorem arena_withArena_other (s : State) (m : Memory) {x y : Space} (h : y ≠ x) :
    (s.withArena m x).arena y = s.arena y := by
  cases x <;> cases y <;> simp at h ⊢

theorem capacity_lt {s : State} (h : s.cfg.WF) (x : Space) : s.capacity x < 2 ^ 63 := by
  obtain ⟨_, hi, _, hs, _, hm, _⟩ := h
  cases x
  · exact hi
  · exact hs
  · exact hm

/-- `m` bytes read at offset `k` of the `n` bytes written are those of `v / 256^k` (rules R11, R50). -/
theorem readLE_writeBytes_leBytes {mem : Memory} (hwf : mem.wf) (a v : Nat) {n k m : Nat}
    (h : k + m ≤ n) :
    (mem.writeBytes a (leBytes n v)).readLE (a + k) m = v / 256 ^ k % 256 ^ m := by
  have hbytes : (mem.writeBytes a (leBytes n v)).readBytes (a + k) m = leBytes m (v / 256 ^ k) := by
    apply List.ext_getElem (by simp)
    intro j hj _
    have hj : j < m := by simpa using hj
    rw [getElem_readBytes _ _ _ _ hj, Nat.add_assoc,
      getByte_writeBytes_same hwf _ _ _ (by simp; omega), getElem_leBytes _ _ _ (by omega),
      getElem_leBytes _ _ _ hj, Nat.div_div_eq_div_mul, Nat.pow_add]
  rw [Memory.readLE, hbytes, leValue_leBytes, modulus_eq_pow]

/-- Settles O48. -/
theorem readAfterWriteSeesTheLittleEndianBytes :
    Obligations.ReadAfterWriteSeesTheLittleEndianBytes := by
  intro x a n v s t hc hwf hwrite
  obtain ⟨hin, rfl⟩ := storeBytes_ok.mp hwrite
  simp only [leBytes_length] at hin
  refine ⟨fun k m hkm => ?_, fun k hk => ?_, fun y hy => arena_withArena_other _ _ hy⟩
  · have hcap := capacity_lt hc x
    have haddr : (a + BitVec.ofNat 64 k).toNat = a.toNat + k := by
      rw [BitVec.toNat_add, BitVec.toNat_ofNat]
      omega
    rw [memRead_inside (by rw [haddr, capacity_withArena]; omega), haddr, arena_withArena_same,
      readLE_writeBytes_leBytes hwf _ _ hkm]
  · rw [arena_withArena_same, getByte_writeBytes_other _ _ (by simpa using hk)]

end Sys2Proof.Machine
end

/-! ## What a step always does

A stopped machine holds, a running one executes what it fetched, and every instruction ends in a next state. -/

section
namespace Sys2Proof.Machine

/-- A machine that is not Running holds (rule R37). -/
theorem step_of_stopped {s : State} (h : s.status ≠ .running) : step s = .next s := by
  unfold step
  cases hs : s.status with
  | running => exact absurd hs h
  | halted | trapped | illegal => rfl

/-- A fetch answers the decoded instruction (rule R81). -/
theorem fetchInstr_of_decodeFrom {s : State} {i : Instr}
    (h : decodeFrom s.cfg.opcodes (fetchByte s) s.cfg.istoreSize = .ok i) : fetchInstr s = .ok i := by
  rw [fetchInstr, h]

/-- A running machine executes the instruction it fetched. -/
theorem step_of_fetchInstr_ok {s : State} {i : Instr} (hrun : s.status = .running)
    (hfetch : fetchInstr s = .ok i) : step s = exec i s := by
  simp only [step, hrun, hfetch]

/-- A running machine takes the fault of a fetch that fails. -/
theorem step_of_fetchInstr_error {s : State} {k : ErrorKind} (hrun : s.status = .running)
    (hfetch : fetchInstr s = .error k) : step s = .next (takeFault k s) := by
  simp only [step, hrun, hfetch]

/-- Settles O5. -/
theorem stepHoldsOrRunsTheDecodedInstruction : Obligations.StepHoldsOrRunsTheDecodedInstruction :=
  ⟨fun _ hstop => step_of_stopped hstop,
    fun _ _ hrun hdec => step_of_fetchInstr_ok hrun (fetchInstr_of_decodeFrom hdec)⟩

/-- An instruction that computes a state or raises a fault ends in a next state either way (rule R236). -/
theorem settle_has_next (s : State) (r : Except ErrorKind State) : ∃ t, settle s r = .next t := by
  cases r with
  | ok t => exact ⟨t, rfl⟩
  | error k => exact ⟨takeFault k s, rfl⟩

/-- No arm of `exec` refuses. -/
theorem exec_has_next (i : Instr) (s : State) : ∃ t, exec i s = .next t := by
  cases i with
  | halt | ecall => exact ⟨_, rfl⟩
  | push | pop | assign | add | sub | and | or | xor | mul | shl | shr | eql | neq | lss | gtr | leq | geq
  | convert | jump | branch | call | ret | storeString => exact settle_has_next s _
  | load | store | quo | rem | jumpNoflag => exact settle_has_next s (.error .unimplementedInstruction)

/-- Settles O10, by what the status and the fetch are. -/
theorem everyStepHasANextState : Obligations.EveryStepHasANextState := by
  intro s
  by_cases hrun : s.status = .running
  · cases hfetch : fetchInstr s with
    | ok i => rw [step_of_fetchInstr_ok hrun hfetch]; exact exec_has_next i s
    | error k => exact ⟨_, step_of_fetchInstr_error hrun hfetch⟩
  · exact ⟨s, step_of_stopped hrun⟩

/-- Settles O60: the empty image fits into REF, and a byte of an empty arena reads as zero. -/
theorem resetIsTheLoadOfTheEmptyImage : Obligations.ResetIsTheLoadOfTheEmptyImage :=
  ⟨(if_pos (Nat.zero_le Config.ref.istoreSize)).symm, rfl, rfl, rfl, rfl, rfl, fun _ => ⟨rfl, rfl, rfl⟩⟩

end Sys2Proof.Machine
end

/-! ## Which instructions write a field

Each rule is read off the five ways in which an instruction can end (`exec_effect`); only for `fp`, which
those ways leave open, the instructions that move data are looked at one by one. -/

section
namespace Sys2Proof.Machine

theorem exec_istore_cfg {i : Instr} {s t : State} (h : exec i s = .next t) :
    t.istore = s.istore ∧ t.cfg = s.cfg := by
  cases exec_effect h with
  | fault | halt | ecall | storeString => exact ⟨rfl, rfl⟩
  | stackOnly _ hstack => exact ⟨hstack.istore, hstack.cfg⟩

/-- Settles O49, by the three things a step can do. -/
theorem stepsNeverWriteTheInstructionStore : Obligations.StepsNeverWriteTheInstructionStore := by
  intro s t h
  rcases step_cases h with ⟨_, rfl⟩ | ⟨_, k, _, rfl⟩ | ⟨_, i, _, hexec⟩
  · exact ⟨rfl, rfl⟩
  · exact ⟨rfl, rfl⟩
  · exact exec_istore_cfg hexec

/-- What an instruction does to `M`: nothing, or the string copied into the device window (rule R204). -/
theorem exec_mem_cases {i : Instr} {s t : State} (h : exec i s = .next t) :
    t.mem = s.mem ∨ ∃ literal, i = .storeString literal ∧
      inWindow s.cfg (operandValue addressDescr s s.sp) (literal.length + 1) = true ∧
      t.mem = s.mem.writeBytes (operandValue addressDescr s s.sp) (literal ++ [0]) := by
  cases exec_effect h with
  | fault | halt | ecall => exact .inl rfl
  | stackOnly _ hstack => exact .inl hstack.mem
  | storeString literal hwin => exact .inr ⟨literal, rfl, hwin, rfl⟩

/-- A byte that a write changes is one of the bytes written. -/
theorem mem_range_of_getByte_writeBytes_ne {m : Memory} {a c : Nat} {bs : List Byte}
    (h : (m.writeBytes a bs).getByte c ≠ m.getByte c) : a ≤ c ∧ c < a + bs.length := by
  by_contra hout
  exact h (getByte_writeBytes_other m bs (by omega))

/-- Settles O50: a byte that changes is one of the string's, and the whole string lies in the window. -/
theorem onlyStoreStringWritesGeneralMemory : Obligations.OnlyStoreStringWritesGeneralMemory := by
  intro i s t a h hchanged
  rcases exec_mem_cases h with hmem | ⟨literal, rfl, hwin, hmem⟩
  · exact absurd (by rw [hmem]) hchanged
  · rw [hmem] at hchanged
    have hwritten := mem_range_of_getByte_writeBytes_ne hchanged
    simp only [inWindow, Bool.and_eq_true, decide_eq_true_eq] at hwin
    simp only [List.length_append, List.length_singleton] at hwritten
    exact ⟨⟨literal, rfl⟩, by omega, by omega⟩

/-- Settles O53, by the five ways in which an instruction can end. -/
theorem statusIsWrittenOnlyAsTabled : Obligations.StatusIsWrittenOnlyAsTabled := by
  intro i s t h
  cases exec_effect h with
  | fault _ k => simp
  | stackOnly _ hstack => rw [hstack.status]; exact ⟨.inl, .inl, id⟩
  | halt => simp
  | ecall => simp
  | storeString literal => exact ⟨.inl, .inl, id⟩

/-- What a `PopRaw` that answers can answer (rule R116). -/
theorem popRaw_ok {n v : Nat} {s t : State} (h : popRaw n s = .ok (v, t)) :
    (n ≤ s.sp.toNat ∧ s.sp.toNat ≤ s.cfg.stackSize) ∧
      v = s.stack.readLE (s.sp - BitVec.ofNat 64 n).toNat n ∧
      t = s.withSp (s.sp - BitVec.ofNat 64 n) := by
  rw [popRaw_eq] at h
  split at h
  · next hready =>
    simp only [Except.ok.injEq, Prod.mk.injEq] at h
    exact ⟨hready, h.1.symm, h.2.symm⟩
  · simp at h

/-- What a `PushValue` that answers can answer (rule R118). -/
theorem pushValue_ok {w v : Nat} {s t : State} (h : pushValue w v s = .ok t) :
    s.sp.toNat + w ≤ s.cfg.stackSize ∧
      t = (s.withStack (s.stack.writeBytes s.sp.toNat (leBytes w v))).withSp
        (s.sp + BitVec.ofNat 64 w) := by
  rw [pushValue_eq] at h
  split at h
  · next hfits => exact ⟨hfits, (Except.ok.inj h).symm⟩
  · simp at h

/-- What a `MemWrite` into `S` that answers can answer (rule R11). -/
theorem memWrite_stack_ok {a : Word} {n v : Nat} {s t : State} (h : memWrite .stack a n v s = .ok t) :
    a.toNat + n ≤ s.cfg.stackSize ∧ t = s.withStack (s.stack.writeBytes a.toNat (leBytes n v)) := by
  obtain ⟨hin, ht⟩ := storeBytes_ok.mp h
  exact ⟨by simpa using hin, ht⟩

/-- The conditions under which STORE_STRING copies its string (rules R202, R203). -/
structure StoreStringReady (literal : List Byte) (s : State) : Prop where
  /-- The address can be read. -/
  address : OperandReady addressDescr s s.sp
  /-- The string lies in the device window. -/
  window : inWindow s.cfg (operandValue addressDescr s s.sp) (literal.length + 1) = true
  /-- The string lies in `M`, as the window does in a configuration of rule R7. -/
  fits : operandValue addressDescr s s.sp + (literal.length + 1) ≤ s.cfg.memSize

theorem storeString_address_toNat (s : State) :
    (BitVec.ofNat 64 (operandValue addressDescr s s.sp)).toNat = operandValue addressDescr s s.sp := by
  rw [BitVec.toNat_ofNat, Nat.mod_eq_of_lt (storeString_address_lt s)]

theorem storeString_fits_iff (literal : List Byte) (s : State) :
    (BitVec.ofNat 64 (operandValue addressDescr s s.sp)).toNat + (literal ++ [0]).length ≤
        (s.withSp (belowOperand addressDescr s.sp)).capacity .mem ↔
      operandValue addressDescr s s.sp + (literal.length + 1) ≤ s.cfg.memSize := by
  rw [storeString_address_toNat, List.length_append, List.length_singleton, capacity_mem, withSp_cfg]

theorem execStoreString_ready {literal : List Byte} {s : State} (h : StoreStringReady literal s) :
    execStoreString literal s = .next (storedString literal s) := by
  have hstore := storeBytes_inside ((storeString_fits_iff literal s).mpr h.fits)
  rw [storeString_address_toNat] at hstore
  simp only [execStoreString, popValue_ready h.address, ok_bind, h.window, require_true, hstore]
  rfl

theorem execStoreString_notReady {literal : List Byte} {s : State} (h : ¬StoreStringReady literal s) :
    execStoreString literal s = .next (takeFault .outOfBounds s) := by
  by_cases haddress : OperandReady addressDescr s s.sp
  · cases hwindow : inWindow s.cfg (operandValue addressDescr s s.sp) (literal.length + 1) with
    | false => simp [execStoreString, popValue_ready haddress, hwindow]
    | true =>
      have hfits : ¬operandValue addressDescr s s.sp + (literal.length + 1) ≤ s.cfg.memSize :=
        fun hfits => h ⟨haddress, hwindow, hfits⟩
      have hstore := storeBytes_outside (mt (storeString_fits_iff literal s).mp hfits)
      simp only [execStoreString, popValue_ready haddress, ok_bind, hwindow, require_true, hstore,
        error_bind, settle_error]
  · simp [execStoreString, popValue_notReady haddress]

/-- An instruction that keeps `fp` where it does not fault keeps it: a fault keeps it too (rule R236). -/
theorem fp_of_settle {s t : State} {r : Except ErrorKind State} (h : settle s r = .next t)
    (hr : ∀ u, r = .ok u → u.fp = s.fp) : t.fp = s.fp := by
  rcases settle_next h with hok | ⟨k, _, rfl⟩
  · exact hr t hok
  · rfl

section
variable {s t : State} {d d1 d2 : Byte}

theorem arithmetic_fp {f : Nat → Nat → Nat → Nat} (h : settle s (arithmetic f d1 d2 s) = .next t) :
    t.fp = s.fp :=
  fp_of_settle h fun u hu => by
    obtain ⟨_, _, rfl⟩ := arithmetic_ok.mp hu
    rfl

theorem comparison_fp {rel : Nat → Bool → Nat → Nat → Bool}
    (h : settle s (comparison rel d1 d2 s) = .next t) : t.fp = s.fp :=
  fp_of_settle h fun u hu => by
    obtain ⟨_, _, rfl⟩ := comparison_ok.mp hu
    rfl

theorem shift_fp {f : Nat → Bool → Nat → Nat → Nat} (h : settle s (shift f d1 d2 s) = .next t) :
    t.fp = s.fp :=
  fp_of_settle h fun u hu => by
    obtain ⟨_, _, rfl⟩ := shift_ok.mp hu
    rfl

theorem execPush_fp {imm : Nat} (h : execPush d imm s = .next t) : t.fp = s.fp :=
  fp_of_settle h fun u hu => by
    simp only [bind_ok, pure_ok, Except.ok.injEq] at hu
    obtain ⟨_, _, s1, hpush, rfl⟩ := hu
    obtain ⟨_, rfl⟩ := pushValue_ok hpush
    rfl

theorem execPop_fp (h : execPop d s = .next t) : t.fp = s.fp :=
  fp_of_settle h fun u hu => by
    simp only [bind_ok, Prod.exists, pure_ok, Except.ok.injEq] at hu
    obtain ⟨_, _, _, _, _, s1, hpop, rfl⟩ := hu
    obtain ⟨_, _, rfl⟩ := popRaw_ok hpop
    rfl

theorem execAssign_fp (h : execAssign d1 d2 s = .next t) : t.fp = s.fp :=
  fp_of_settle h fun u hu => by
    simp only [bind_ok, Prod.exists, pure_ok, Except.ok.injEq] at hu
    obtain ⟨_, _, _, _, _, _, _, v, s1, hpayload, off, s2, hoff, s3, hwrite, rfl⟩ := hu
    obtain ⟨_, _, rfl⟩ := popValue_ok hpayload
    obtain ⟨_, _, rfl⟩ := popRaw_ok hoff
    obtain ⟨_, rfl⟩ := memWrite_stack_ok hwrite
    rfl

theorem execConvert_fp (h : execConvert d1 d2 s = .next t) : t.fp = s.fp :=
  fp_of_settle h fun u hu => by
    simp only [bind_ok, Prod.exists, pure_ok, Except.ok.injEq] at hu
    obtain ⟨_, _, _, _, _, a, s1, hpop, s2, hpush, rfl⟩ := hu
    obtain ⟨_, _, rfl⟩ := popValue_ok hpop
    obtain ⟨_, rfl⟩ := pushValue_ok hpush
    rfl

theorem execJump_fp (h : execJump s = .next t) : t.fp = s.fp :=
  fp_of_settle h fun u hu => by
    simp only [bind_ok, Prod.exists, pure_ok, Except.ok.injEq] at hu
    obtain ⟨off, s1, hoff, rfl⟩ := hu
    obtain ⟨_, _, rfl⟩ := popRaw_ok hoff
    rfl

theorem execBranch_fp (h : execBranch d s = .next t) : t.fp = s.fp :=
  fp_of_settle h fun u hu => by
    simp only [bind_ok, Prod.exists, pure_ok, Except.ok.injEq] at hu
    obtain ⟨_, _, off, s1, hoff, c, s2, hcond, rfl⟩ := hu
    obtain ⟨_, _, rfl⟩ := popRaw_ok hoff
    obtain ⟨_, _, rfl⟩ := popValue_ok hcond
    split <;> rfl

theorem execStoreString_fp {literal : List Byte} (h : execStoreString literal s = .next t) :
    t.fp = s.fp := by
  by_cases hready : StoreStringReady literal s
  · cases (execStoreString_ready hready).symm.trans h
    rfl
  · cases (execStoreString_notReady hready).symm.trans h
    rfl

theorem unimplemented_fp (h : unimplemented s = .next t) : t.fp = s.fp :=
  fp_of_settle h fun _ hu => by simp at hu

end

/-- Settles O52, by the instruction. -/
theorem onlyCallAndReturnWriteTheFramePointer : Obligations.OnlyCallAndReturnWriteTheFramePointer := by
  intro i s t h hfp
  cases i with
  | call => exact .inl rfl
  | ret d => exact .inr ⟨d, rfl⟩
  | halt | ecall => cases h; exact absurd rfl hfp
  | push => exact absurd (execPush_fp h) hfp
  | pop => exact absurd (execPop_fp h) hfp
  | assign => exact absurd (execAssign_fp h) hfp
  | add | sub | and | or | xor | mul => exact absurd (arithmetic_fp h) hfp
  | shl | shr => exact absurd (shift_fp h) hfp
  | eql | neq | lss | gtr | leq | geq => exact absurd (comparison_fp h) hfp
  | convert => exact absurd (execConvert_fp h) hfp
  | jump => exact absurd (execJump_fp h) hfp
  | branch => exact absurd (execBranch_fp h) hfp
  | storeString => exact absurd (execStoreString_fp h) hfp
  | load | store | quo | rem | jumpNoflag => exact absurd (unimplemented_fp h) hfp

end Sys2Proof.Machine
end

/-! ## No instruction reads general memory

Every operation on `S` commutes with replacing `M`, faults included, and so do the instructions built from
them. STORE_STRING writes `M`, but neither what it writes nor where depends on what was there. -/

section
namespace Sys2Proof.Machine

/-- The answer of an operation, a value and a state, with `M` replaced in the state. -/
def answerWithMem {α : Type} (m : Memory) (r : α × State) : α × State := (r.1, r.2.withMem m)

section
variable {α β γ : Type}

/-- Two sequences agree up to `h` when their first parts agree up to `g` and `g` takes the rest of the one
to the rest of the other. -/
theorem bind_map {x x' : Except ErrorKind α} {f f' : α → Except ErrorKind β} {g : α → α} {h : β → β}
    (hx : x' = x.map g) (hf : ∀ a, f' (g a) = (f a).map h) : (x' >>= f') = (x >>= f).map h := by
  subst hx
  cases x with
  | ok a => exact hf a
  | error k => rfl

/-- Two sequences with the same first part agree up to `h` when their rests do. -/
theorem bind_map_same {x : Except ErrorKind α} {f f' : α → Except ErrorKind β} {h : β → β}
    (hf : ∀ a, f' a = (f a).map h) : (x >>= f') = (x >>= f).map h := by
  cases x with
  | ok a => exact hf a
  | error k => rfl

end

section
variable (m : Memory) (s : State)

theorem memRead_stack_withMem (a : Word) (n : Nat) :
    memRead .stack a n (s.withMem m) = memRead .stack a n s := rfl

theorem memWrite_stack_withMem (a : Word) (n v : Nat) :
    memWrite .stack a n v (s.withMem m) = (memWrite .stack a n v s).map (·.withMem m) := by
  rw [memWrite, memWrite, storeBytes, storeBytes, apply_ite (Except.map (State.withMem · m))]
  rfl

theorem popRaw_withMem (n : Nat) : popRaw n (s.withMem m) = (popRaw n s).map (answerWithMem m) := by
  rw [popRaw_eq, popRaw_eq, apply_ite (Except.map (answerWithMem m))]
  rfl

theorem popValue_withMem (t : Descr) :
    popValue t (s.withMem m) = (popValue t s).map (answerWithMem m) := by
  unfold popValue
  split
  · exact bind_map (popRaw_withMem m s 8) fun (off, s1) => bind_map_same fun v => rfl
  · exact popRaw_withMem m s t.size

theorem pushValue_withMem (w v : Nat) :
    pushValue w v (s.withMem m) = (pushValue w v s).map (·.withMem m) :=
  bind_map (memWrite_stack_withMem m s s.sp w v) fun _ => rfl

theorem popOperands_withMem (t1 t2 : Descr) :
    popOperands t1 t2 (s.withMem m) =
      (popOperands t1 t2 s).map fun (a, r) => (a, answerWithMem m r) :=
  bind_map (popValue_withMem m s t2) fun (_, s1) => bind_map (popValue_withMem m s1 t1) fun _ => rfl

theorem returnStack_withMem (t : Option Descr) (a : Nat) :
    returnStack t a (s.withMem m) = (returnStack t a s).map (·.withMem m) := by
  cases t with
  | none => rfl
  | some t =>
    exact bind_map (popValue_withMem m s t) fun (v, s1) =>
      pushValue_withMem m (s1.withSp (BitVec.ofNat 64 a + s.fp)) t.size v

theorem arithmetic_withMem (f : Nat → Nat → Nat → Nat) (d1 d2 : Byte) :
    arithmetic f d1 d2 (s.withMem m) = (arithmetic f d1 d2 s).map (·.withMem m) :=
  bind_map_same fun (t1, t2) => bind_map_same fun _ =>
    bind_map (popOperands_withMem m s t1 t2) fun (_, _, s1) =>
      bind_map (pushValue_withMem m s1 _ _) fun _ => rfl

theorem comparison_withMem (rel : Nat → Bool → Nat → Nat → Bool) (d1 d2 : Byte) :
    comparison rel d1 d2 (s.withMem m) = (comparison rel d1 d2 s).map (·.withMem m) :=
  bind_map_same fun (t1, t2) => bind_map_same fun _ =>
    bind_map (popOperands_withMem m s t1 t2) fun (_, _, s1) =>
      bind_map (pushValue_withMem m s1 _ _) fun _ => rfl

theorem shift_withMem (f : Nat → Bool → Nat → Nat → Nat) (d1 d2 : Byte) :
    shift f d1 d2 (s.withMem m) = (shift f d1 d2 s).map (·.withMem m) :=
  bind_map_same fun (t1, t2) =>
    bind_map (popOperands_withMem m s t1 t2) fun (_, _, s1) => bind_map_same fun _ =>
      bind_map (pushValue_withMem m s1 _ _) fun _ => rfl

end

/-- An instruction whose computation commutes with replacing `M` ends, for other contents of `M`, in the state
it ends in but for `M`; a fault does too (rule R236). -/
theorem settle_withMem {m : Memory} {s t : State} {r r' : Except ErrorKind State}
    (h : settle s r = .next t) (hr : r' = r.map (·.withMem m)) :
    settle (s.withMem m) r' = .next (t.withMem m) := by
  subst hr
  rcases settle_next h with rfl | ⟨k, rfl, rfl⟩
  · rfl
  · rfl

section
variable (m : Memory) {s t : State} {d d1 d2 : Byte}

theorem execPush_withMem {imm : Nat} (h : execPush d imm s = .next t) :
    execPush d imm (s.withMem m) = .next (t.withMem m) :=
  settle_withMem h <| bind_map_same fun _ => bind_map (pushValue_withMem m s _ imm) fun _ => rfl

theorem execPop_withMem (h : execPop d s = .next t) :
    execPop d (s.withMem m) = .next (t.withMem m) :=
  settle_withMem h <| bind_map_same fun _ => bind_map_same fun _ =>
    bind_map (popRaw_withMem m s _) fun _ => rfl

theorem execAssign_withMem (h : execAssign d1 d2 s = .next t) :
    execAssign d1 d2 (s.withMem m) = .next (t.withMem m) :=
  settle_withMem h <| bind_map_same fun (_, t2) => bind_map_same fun _ => bind_map_same fun _ =>
    bind_map (popValue_withMem m s t2) fun (_, s1) => bind_map (popRaw_withMem m s1 8) fun (_, s2) =>
      bind_map (memWrite_stack_withMem m s2 _ _ _) fun _ => rfl

theorem execConvert_withMem (h : execConvert d1 d2 s = .next t) :
    execConvert d1 d2 (s.withMem m) = .next (t.withMem m) :=
  settle_withMem h <| bind_map_same fun (t1, _) => bind_map_same fun _ =>
    bind_map (popValue_withMem m s t1) fun (_, s1) =>
      bind_map (pushValue_withMem m s1 _ _) fun _ => rfl

theorem execJump_withMem (h : execJump s = .next t) :
    execJump (s.withMem m) = .next (t.withMem m) :=
  settle_withMem h <| bind_map (popRaw_withMem m s 8) fun _ => rfl

theorem execBranch_withMem (h : execBranch d s = .next t) :
    execBranch d (s.withMem m) = .next (t.withMem m) :=
  settle_withMem h <| bind_map_same fun dt => bind_map (popRaw_withMem m s 8) fun (off, s1) =>
    bind_map (popValue_withMem m s1 dt) fun (c, s2) =>
      congrArg Except.ok (apply_ite (·.withMem m) (c = 0) (s2.jumpBy off) (s2.advance 2)).symm

theorem execCall_withMem (h : execCall s = .next t) :
    execCall (s.withMem m) = .next (t.withMem m) :=
  settle_withMem h <| bind_map (popRaw_withMem m s 8) fun (_, s1) =>
    bind_map (pushValue_withMem m s1 8 s.fp.toNat) fun s2 =>
      bind_map (pushValue_withMem m s2 8 (s.pc + 1).toNat) fun _ => rfl

theorem execReturn_withMem (h : execReturn d s = .next t) :
    execReturn d (s.withMem m) = .next (t.withMem m) :=
  settle_withMem h <| bind_map_same fun rt => bind_map (popRaw_withMem m s 8) fun (a, s1) =>
    bind_map_same fun _ => bind_map_same fun _ =>
      bind_map (returnStack_withMem m s1 rt a) fun _ => rfl

end

/-- Both runs, from `m₁` to `n₁` and from `m₂` to `n₂`, do the same to each byte: they keep it, or they leave
the same byte there. -/
def SameBytesWritten (m₁ n₁ m₂ n₂ : Memory) : Prop :=
  ∀ a, (n₂.getByte a = m₂.getByte a ∧ n₁.getByte a = m₁.getByte a) ∨ n₂.getByte a = n₁.getByte a

theorem sameBytesWritten_of_kept (m₁ m₂ : Memory) : SameBytesWritten m₁ m₁ m₂ m₂ :=
  fun _ => .inl ⟨rfl, rfl⟩

/-- One run of bytes written into two canonical memories. -/
theorem sameBytesWritten_writeBytes {m₁ m₂ : Memory} (h₁ : m₁.wf) (h₂ : m₂.wf) (a : Nat)
    (bs : List Byte) : SameBytesWritten m₁ (m₁.writeBytes a bs) m₂ (m₂.writeBytes a bs) := by
  intro c
  by_cases hout : c < a ∨ a + bs.length ≤ c
  · exact .inl ⟨getByte_writeBytes_other _ _ hout, getByte_writeBytes_other _ _ hout⟩
  · obtain ⟨k, rfl⟩ := Nat.exists_eq_add_of_le (show a ≤ c by omega)
    have hk : k < bs.length := by omega
    exact .inr (by rw [getByte_writeBytes_same h₁ a bs k hk, getByte_writeBytes_same h₂ a bs k hk])

/-- From other contents `m` of `M`, whatever is executed (`run`) ends in the state `t` but for `M`, and in `M` it
writes the same bytes. -/
def EndsAlikeWithMem (run : State → Host.Outcome State Fault Refusal) (s t : State) (m : Memory) : Prop :=
  ∃ m', run (s.withMem m) = .next (t.withMem m') ∧
    (s.mem.wf = true → m.wf = true → SameBytesWritten s.mem t.mem m m')

theorem endsAlikeWithMem_of_kept {run : State → Host.Outcome State Fault Refusal} {s t : State}
    {m : Memory} (hrun : run (s.withMem m) = .next (t.withMem m)) (hmem : t.mem = s.mem) :
    EndsAlikeWithMem run s t m :=
  ⟨m, hrun, fun _ _ => hmem ▸ sameBytesWritten_of_kept s.mem m⟩

/-- STORE_STRING takes its address, and every condition of its copy, from `S` and the parameters alone. -/
theorem storeStringReady_withMem {literal : List Byte} {s : State} {m : Memory} :
    StoreStringReady literal (s.withMem m) ↔ StoreStringReady literal s :=
  ⟨fun h => ⟨h.address, h.window, h.fits⟩, fun h => ⟨h.address, h.window, h.fits⟩⟩

theorem execStoreString_withMem {literal : List Byte} {s t : State}
    (h : execStoreString literal s = .next t) (m : Memory) :
    EndsAlikeWithMem (execStoreString literal) s t m := by
  by_cases hready : StoreStringReady literal s
  · cases (execStoreString_ready hready).symm.trans h
    exact ⟨_, execStoreString_ready (storeStringReady_withMem.mpr hready),
      fun hs hm => sameBytesWritten_writeBytes hs hm _ _⟩
  · cases (execStoreString_notReady hready).symm.trans h
    exact endsAlikeWithMem_of_kept
      (execStoreString_notReady (mt storeStringReady_withMem.mp hready)) rfl

/-- Every instruction but STORE_STRING keeps `M` and does not depend on it. -/
theorem exec_withMem_of_ne_storeString {i : Instr} {s t : State} (h : exec i s = .next t)
    (hi : ∀ literal, i ≠ .storeString literal) (m : Memory) :
    exec i (s.withMem m) = .next (t.withMem m) := by
  cases i with
  | halt | ecall => cases h; rfl
  | push => exact execPush_withMem m h
  | pop => exact execPop_withMem m h
  | assign => exact execAssign_withMem m h
  | add d1 d2 | sub d1 d2 | and d1 d2 | or d1 d2 | xor d1 d2 | mul d1 d2 =>
    exact settle_withMem h (arithmetic_withMem m s _ d1 d2)
  | shl d1 d2 | shr d1 d2 => exact settle_withMem h (shift_withMem m s _ d1 d2)
  | eql d1 d2 | neq d1 d2 | lss d1 d2 | gtr d1 d2 | leq d1 d2 | geq d1 d2 =>
    exact settle_withMem h (comparison_withMem m s _ d1 d2)
  | convert => exact execConvert_withMem m h
  | jump => exact execJump_withMem m h
  | branch => exact execBranch_withMem m h
  | call => exact execCall_withMem m h
  | ret => exact execReturn_withMem m h
  | storeString literal => exact absurd rfl (hi literal)
  | load | store | quo | rem | jumpNoflag => cases h; rfl

theorem exec_withMem {i : Instr} {s t : State} (h : exec i s = .next t) (m : Memory) :
    EndsAlikeWithMem (exec i) s t m := by
  by_cases hi : ∃ literal, i = .storeString literal
  · obtain ⟨literal, rfl⟩ := hi
    exact execStoreString_withMem h m
  · have hne : ∀ literal, i ≠ .storeString literal := fun literal hl => hi ⟨literal, hl⟩
    rcases exec_mem_cases h with hmem | ⟨literal, hl, _⟩
    · exact endsAlikeWithMem_of_kept (exec_withMem_of_ne_storeString h hne m) hmem
    · exact absurd hl (hne literal)

/-- A fetch reads `I` alone. -/
theorem fetchInstr_withMem (s : State) (m : Memory) : fetchInstr (s.withMem m) = fetchInstr s := rfl

theorem step_withMem {s t : State} (h : step s = .next t) (m : Memory) : EndsAlikeWithMem step s t m := by
  rcases step_cases h with ⟨hstop, rfl⟩ | ⟨hrun, k, hfetch, rfl⟩ | ⟨hrun, i, hfetch, hexec⟩
  · exact endsAlikeWithMem_of_kept (step_of_stopped (s := t.withMem m) hstop) rfl
  · exact endsAlikeWithMem_of_kept (step_of_fetchInstr_error (s := s.withMem m) hrun hfetch) rfl
  · obtain ⟨m', hend, hbytes⟩ := exec_withMem hexec m
    exact ⟨m', (step_of_fetchInstr_ok (s := s.withMem m) hrun hfetch).trans hend, hbytes⟩

/-- Settles O51. -/
theorem noStepReadsGeneralMemory : Obligations.NoStepReadsGeneralMemory :=
  fun _ _ m h => step_withMem h m

end Sys2Proof.Machine
end

/-! ## Accesses and the edge of the arena -/

section
namespace Sys2Proof.Machine

theorem memWrite_inside {x : Space} {a : Word} {n v : Nat} {s : State}
    (h : a.toNat + n ≤ s.capacity x) :
    memWrite x a n v s = .ok (s.withArena ((s.arena x).writeBytes a.toNat (leBytes n v)) x) :=
  storeBytes_inside (by simpa using h)

theorem memWrite_outside {x : Space} {a : Word} {n v : Nat} {s : State}
    (h : ¬a.toNat + n ≤ s.capacity x) : memWrite x a n v s = .error .outOfBounds :=
  storeBytes_outside (by simpa using h)

/-- Settles O47, by the two sides of the arena's capacity. -/
theorem accessIsAllowedExactlyInsideTheArena : Obligations.AccessIsAllowedExactlyInsideTheArena := by
  intro x a n v s
  constructor
  · intro hin
    exact ⟨⟨_, memRead_inside hin⟩, _, memWrite_inside hin⟩
  · intro hout
    have hout : ¬a.toNat + n ≤ s.capacity x := Nat.not_le_of_lt hout
    exact ⟨memRead_outside hout, memWrite_outside hout⟩

end Sys2Proof.Machine
end

/-! ## The decoder and the encoder

Both halves of the agreement speak of bytes that stand where the decoder asks for them: if the encoding of a
well-formed instruction stands there, the decoder answers that instruction, and if the decoder answers an
instruction, that instruction is well-formed and its encoding stands there. The same two lemmas serve byte
strings and the instruction store. -/

section
namespace Sys2Proof

/-- The bytes `bs` stand from the place `k` on. -/
def BytesAt (fetch : Nat → Option Byte) (k : Nat) (bs : List Byte) : Prop :=
  ∀ j (h : j < bs.length), fetch (k + j) = some bs[j]

section
variable {fetch : Nat → Option Byte} {k : Nat}

@[simp] theorem bytesAt_nil : BytesAt fetch k [] := fun _ h => absurd h (Nat.not_lt_zero _)

@[simp] theorem bytesAt_cons {b : Byte} {bs : List Byte} :
    BytesAt fetch k (b :: bs) ↔ fetch k = some b ∧ BytesAt fetch (k + 1) bs := by
  constructor
  · intro h
    refine ⟨h 0 (Nat.zero_lt_succ _), fun j hj => ?_⟩
    rw [Nat.add_assoc, Nat.add_comm 1 j]
    exact h (j + 1) (Nat.succ_lt_succ hj)
  · rintro ⟨h0, hs⟩ (_ | j) hj
    · exact h0
    · have hat := hs j (Nat.lt_of_succ_lt_succ hj)
      rw [Nat.add_assoc, Nat.add_comm 1 j] at hat
      exact hat

/-- A byte string holds `bs` from its head on exactly when it begins with `bs`. -/
theorem bytesAt_getElem?_iff {bytes bs : List Byte} :
    BytesAt (fun k => bytes[k]?) 0 bs ↔ bs <+: bytes := by
  simp only [BytesAt, Nat.zero_add]
  exact List.prefix_iff_getElem?.symm

/-- Formats `D` and `R` (rule R82): one operand byte. -/
theorem fetchOne_eq_some {make : Byte → Instr} {i : Instr} :
    fetchOne fetch make = some i ↔ ∃ d, BytesAt fetch 1 [d] ∧ make d = i := by
  simp [fetchOne]

/-- Format `DD` (rule R82): `d1` stands before `d2`. -/
theorem fetchTwo_eq_some {make : Byte → Byte → Instr} {i : Instr} :
    fetchTwo fetch make = some i ↔ ∃ d1 d2, BytesAt fetch 1 [d1, d2] ∧ make d1 d2 = i := by
  simp only [fetchTwo, bytesAt_cons, bytesAt_nil, and_true]
  cases fetch 1 <;> cases fetch 2 <;> simp

/-- Format `DI` (rules R82, R86): a descriptor and as many immediate bytes as it asks for. -/
theorem fetchPush_eq_some {i : Instr} :
    fetchPush fetch = some i ↔
      ∃ d bs, bs.length = immLength d ∧ BytesAt fetch 1 (d :: bs) ∧ .push d (leValue bs) = i := by
  simp only [fetchPush, bytesAt_cons]
  constructor
  · intro h
    split at h
    · simp at h
    · next d hd =>
      obtain ⟨bs, hbs, rfl⟩ := Option.map_eq_some_iff.mp h
      have hlen := fetchBytes_length hbs
      exact ⟨d, bs, hlen, ⟨hd, fetchBytes_eq_some.mp (hlen ▸ hbs)⟩, rfl⟩
  · rintro ⟨d, bs, hlen, ⟨hd, hbs⟩, rfl⟩
    have hbs : fetchBytes fetch 2 (immLength d) = some bs := hlen ▸ fetchBytes_eq_some.mpr hbs
    simp [hd, hbs]

variable {fuel : Nat}

/-- Where the operand bytes of a well-formed instruction stand, the decoder of its mnemonic answers it. -/
theorem decodeOperands_of_bytesAt {i : Instr} (hwf : i.wellFormed = true) (hfuel : i.length ≤ fuel)
    (h : BytesAt fetch 1 (encodeOperands i)) : decodeOperands fetch fuel i.mnemonic = some i := by
  cases i with
  | halt | ecall | jump | call | load | store | quo | rem | jumpNoflag => rfl
  | pop d | branch d | ret d => exact fetchOne_eq_some.mpr ⟨d, h, rfl⟩
  | assign d1 d2 | add d1 d2 | sub d1 d2 | and d1 d2 | or d1 d2 | xor d1 d2 | mul d1 d2 | shl d1 d2
  | shr d1 d2 | eql d1 d2 | neq d1 d2 | lss d1 d2 | gtr d1 d2 | leq d1 d2 | geq d1 d2
  | convert d1 d2 => exact fetchTwo_eq_some.mpr ⟨d1, d2, h, rfl⟩
  | push d imm =>
    have himm : imm < modulus (immLength d) := of_decide_eq_true hwf
    have hvalue : leValue (leBytes (immLength d) imm) = imm := by
      rw [leValue_leBytes, Nat.mod_eq_of_lt himm]
    exact fetchPush_eq_some.mpr ⟨d, _, leBytes_length _ imm, h, by rw [hvalue]⟩
  | storeString literal =>
    have hzero : ∀ b ∈ literal, b ≠ 0 := by simpa [Instr.wellFormed] using hwf
    have hlen : literal.length < fuel := by simp only [Instr.length] at hfuel; omega
    exact Option.map_eq_some_iff.mpr ⟨literal, fetchLiteral_eq_some hzero hlen h, rfl⟩

/-- What the decoder of a mnemonic answers is a well-formed instruction of that mnemonic, and its operand
bytes stand there. -/
theorem decodeOperands_some {m : Mnemonic} {i : Instr} (h : decodeOperands fetch fuel m = some i) :
    i.mnemonic = m ∧ i.wellFormed = true ∧ BytesAt fetch 1 (encodeOperands i) := by
  cases m with
  | halt | ecall | jump | call | load | store | quo | rem | jumpNoflag =>
    cases h
    exact ⟨rfl, rfl, bytesAt_nil⟩
  | pop | branch | ret =>
    obtain ⟨d, hd, rfl⟩ := fetchOne_eq_some.mp h
    exact ⟨rfl, rfl, hd⟩
  | assign | add | sub | and | or | xor | mul | shl | shr | eql | neq | lss | gtr | leq | geq | convert =>
    obtain ⟨d1, d2, hd, rfl⟩ := fetchTwo_eq_some.mp h
    exact ⟨rfl, rfl, hd⟩
  | push =>
    obtain ⟨d, bs, hlen, hbytes, rfl⟩ := fetchPush_eq_some.mp h
    have himm : leValue bs < modulus (immLength d) := hlen ▸ leValue_lt bs
    have hencoded : leBytes (immLength d) (leValue bs) = bs := hlen ▸ leBytes_leValue bs
    refine ⟨rfl, decide_eq_true himm, ?_⟩
    rwa [encodeOperands, hencoded]
  | storeString =>
    obtain ⟨literal, hliteral, rfl⟩ := Option.map_eq_some_iff.mp h
    obtain ⟨hzero, hbytes⟩ := fetchLiteral_some hliteral
    exact ⟨rfl, by simpa [Instr.wellFormed] using hzero, hbytes⟩

/-- Where the encoding of a well-formed instruction stands, the decoder answers it (rules R80, R89). -/
theorem decodeFrom_of_bytesAt {o : OpcodeMap} {i : Instr} (ho : o.toList.Nodup)
    (hwf : i.wellFormed = true) (hfuel : i.length ≤ fuel) (h : BytesAt fetch 0 (encode o i)) :
    decodeFrom o fetch fuel = .ok i := by
  obtain ⟨hop, hoperands⟩ := bytesAt_cons.mp h
  simp only [decodeFrom, hop, lookup_code ho, decodeOperands_of_bytesAt hwf hfuel hoperands]

/-- What the decoder answers is well-formed, and its encoding stands there. -/
theorem decodeFrom_ok {o : OpcodeMap} {i : Instr} (h : decodeFrom o fetch fuel = .ok i) :
    i.wellFormed = true ∧ BytesAt fetch 0 (encode o i) := by
  cases hop : fetch 0 with
  | none => simp [decodeFrom, hop] at h
  | some op =>
    cases hm : o.lookup op with
    | none => simp [decodeFrom, hop, hm] at h
    | some m =>
      cases hj : decodeOperands fetch fuel m with
      | none => simp [decodeFrom, hop, hm, hj] at h
      | some j =>
        obtain rfl : j = i := by simpa [decodeFrom, hop, hm, hj] using h
        obtain ⟨hmnemonic, hwf, hoperands⟩ := decodeOperands_some hj
        have hcode : o.code j.mnemonic = op := by rw [hmnemonic, code_of_lookup hm]
        exact ⟨hwf, bytesAt_cons.mpr ⟨by rw [hcode, hop], hoperands⟩⟩

/-- A byte that is no mnemonic's is no opcode (rule R91). -/
theorem decodeFrom_unknownOpcode {o : OpcodeMap} {b : Byte} (hb : fetch 0 = some b)
    (hunknown : b ∉ o.toList) : decodeFrom o fetch fuel = .error .unknownOpcode := by
  simp only [decodeFrom, hb, lookup_eq_none.mpr hunknown]

end

theorem encode_length (o : OpcodeMap) (i : Instr) : (encode o i).length = i.length := by
  cases i with
  | push d imm => exact Laws.EncodeLength.push d imm o
  | storeString literal => exact Laws.EncodeLength.storeString literal o
  | halt | ecall | pop | assign | add | sub | and | or | xor | mul | shl | shr | eql | neq | lss | gtr | leq
  | geq | convert | jump | branch | call | ret | load | store | quo | rem | jumpNoflag => rfl

/-- The default map gives out the bytes 1 to 30 (rule R90). -/
theorem mem_default_toList {b : Byte} : b ∈ OpcodeMap.default.toList ↔ 1 ≤ b.toNat ∧ b.toNat < 31 := by
  have htable : OpcodeMap.default.toList = (List.range' 1 30).map (BitVec.ofNat 8) := by decide
  rw [htable, List.mem_map]
  constructor
  · rintro ⟨n, hn, rfl⟩
    rw [List.mem_range'_1] at hn
    rw [BitVec.toNat_ofNat]
    omega
  · intro h
    exact ⟨b.toNat, List.mem_range'_1.mpr h, by simp⟩

namespace Machine

/-- Settles O3: what is decoded begins with the encoding, so the encoding stands where the decoder asks. -/
theorem encodeThenDecodeIsIdentity : Obligations.EncodeThenDecodeIsIdentity := by
  intro o i rest ho hwf
  have hfuel : i.length ≤ (encode o i ++ rest).length := by
    rw [List.length_append, encode_length]
    omega
  exact decodeFrom_of_bytesAt ho hwf hfuel
    (bytesAt_getElem?_iff.mpr (List.prefix_append _ rest))

/-- Settles O4. -/
theorem decodedInstructionIsItsBytes : Obligations.DecodedInstructionIsItsBytes := by
  intro o bytes i h
  obtain ⟨hwf, hbytes⟩ := decodeFrom_ok h
  exact ⟨hwf, encode_length o i, bytesAt_getElem?_iff.mp hbytes⟩

/-- Settles O2: nine closed byte strings, each evaluated by the decoder. -/
theorem writtenOutBytesDecode : Obligations.WrittenOutBytesDecode := by
  unfold Obligations.WrittenOutBytesDecode
  decide

theorem opcodes_nodup {c : Config} (h : c.WF) : c.opcodes.toList.Nodup := by
  obtain ⟨_, _, _, _, _, _, _, _, hnodup⟩ := h
  exact hnodup

/-- The bytes of `I` from `pc` on are the ones fetched, as far as `I` reaches (rule R13): a store smaller than
`2^63` bytes is passed without a wrap of the address. -/
theorem bytesAt_fetchByte {s : State} {n : Nat} (hcfg : s.cfg.WF)
    (hin : s.pc.toNat + n ≤ s.cfg.istoreSize) :
    BytesAt (fetchByte s) 0 (s.istore.readBytes s.pc.toNat n) := by
  obtain ⟨_, hsize, _⟩ := hcfg
  intro j hj
  have hj : j < n := by simpa using hj
  have haddr : (s.pc + BitVec.ofNat 64 j).toNat = s.pc.toNat + j := by
    rw [BitVec.toNat_add, BitVec.toNat_ofNat]
    omega
  rw [Nat.zero_add, getElem_readBytes _ _ _ _ hj, fetchByte_eq_some, haddr]
  exact ⟨by omega, rfl⟩

/-- Settles O6: the bytes in `I` are the ones fetched, and they decode to `i`. -/
theorem stepRunsTheEncodedInstruction : Obligations.StepRunsTheEncodedInstruction := by
  intro s i hcfg hrun hwf hin hencoded
  have hbytes := bytesAt_fetchByte hcfg hin
  rw [hencoded] at hbytes
  have hdecode := decodeFrom_of_bytesAt (opcodes_nodup hcfg) hwf (fuel := s.cfg.istoreSize)
    (by omega) hbytes
  exact step_of_fetchInstr_ok hrun (fetchInstr_of_decodeFrom hdecode)

/-- The opcode byte is the byte of `I` at `pc` (rule R13). -/
theorem fetchByte_zero {s : State} (h : s.pc.toNat < s.cfg.istoreSize) :
    fetchByte s 0 = some (s.istore.getByte s.pc.toNat) := by
  rw [fetchByte_eq_some, BitVec.add_zero]
  exact ⟨h, rfl⟩

/-- Settles O7, the fault by the lookup that fails and the 226 bytes by the table of the default map. -/
theorem unknownOpcodeRaisesInvalidInstruction : Obligations.UnknownOpcodeRaisesInvalidInstruction := by
  constructor
  · intro s hrun hin hunknown
    have hdecode := decodeFrom_unknownOpcode (fuel := s.cfg.istoreSize) (fetchByte_zero hin) hunknown
    have hfetch : fetchInstr s = .error .invalidInstruction := by rw [fetchInstr, hdecode]; rfl
    exact step_of_fetchInstr_error hrun hfetch
  · intro b
    have hzero : b = 0x00 ↔ b.toNat = 0 := BitVec.toNat_inj.symm
    rw [mem_default_toList, hzero]
    omega

end Machine
end Sys2Proof
end

/-! ## How far an instruction moves `pc` -/

section
namespace Sys2Proof.Machine

/-- An instruction that ends without a fault ends in the state it computed. -/
theorem ok_of_settle {s t : State} {r : Except ErrorKind State} (h : settle s r = .next t)
    (ht : t.status ≠ .illegal) : r = .ok t := by
  rcases settle_next h with hok | ⟨k, _, rfl⟩
  · exact hok
  · exact absurd rfl ht

/-- A descriptor that decodes gives PUSH as many immediate bytes as its width (rule R86). -/
theorem immLength_of_valid {d : Byte} (h : validDescr d = true) : immLength d = descrSize d := if_pos h

section
variable {s t : State} {d d1 d2 : Byte} (ht : t.status ≠ .illegal)
include ht

theorem arithmetic_pc {f : Nat → Nat → Nat → Nat} (h : settle s (arithmetic f d1 d2 s) = .next t) :
    t.pc = s.pc + BitVec.ofNat 64 3 := by
  obtain ⟨_, _, rfl⟩ := arithmetic_ok.mp (ok_of_settle h ht)
  rfl

theorem comparison_pc {rel : Nat → Bool → Nat → Nat → Bool}
    (h : settle s (comparison rel d1 d2 s) = .next t) : t.pc = s.pc + BitVec.ofNat 64 3 := by
  obtain ⟨_, _, rfl⟩ := comparison_ok.mp (ok_of_settle h ht)
  rfl

theorem shift_pc {f : Nat → Bool → Nat → Nat → Nat} (h : settle s (shift f d1 d2 s) = .next t) :
    t.pc = s.pc + BitVec.ofNat 64 3 := by
  obtain ⟨_, _, rfl⟩ := shift_ok.mp (ok_of_settle h ht)
  rfl

theorem execPush_pc {imm : Nat} (h : execPush d imm s = .next t) :
    t.pc = s.pc + BitVec.ofNat 64 (2 + immLength d) := by
  have hok := ok_of_settle h ht
  simp only [bind_ok, pure_ok, Except.ok.injEq] at hok
  obtain ⟨_, hdescr, s1, hpush, rfl⟩ := hok
  obtain ⟨hvalid, rfl⟩ := decodeDescr_ok.mp hdescr
  obtain ⟨_, rfl⟩ := pushValue_ok hpush
  rw [immLength_of_valid hvalid]
  rfl

theorem execPop_pc (h : execPop d s = .next t) : t.pc = s.pc + BitVec.ofNat 64 2 := by
  have hok := ok_of_settle h ht
  simp only [bind_ok, Prod.exists, pure_ok, Except.ok.injEq] at hok
  obtain ⟨_, _, _, _, _, s1, hpop, rfl⟩ := hok
  obtain ⟨_, _, rfl⟩ := popRaw_ok hpop
  rfl

theorem execAssign_pc (h : execAssign d1 d2 s = .next t) : t.pc = s.pc + BitVec.ofNat 64 3 := by
  have hok := ok_of_settle h ht
  simp only [bind_ok, Prod.exists, pure_ok, Except.ok.injEq] at hok
  obtain ⟨_, _, _, _, _, _, _, v, s1, hpayload, off, s2, hoff, s3, hwrite, rfl⟩ := hok
  obtain ⟨_, _, rfl⟩ := popValue_ok hpayload
  obtain ⟨_, _, rfl⟩ := popRaw_ok hoff
  obtain ⟨_, rfl⟩ := memWrite_stack_ok hwrite
  rfl

theorem execConvert_pc (h : execConvert d1 d2 s = .next t) : t.pc = s.pc + BitVec.ofNat 64 3 := by
  have hok := ok_of_settle h ht
  simp only [bind_ok, Prod.exists, pure_ok, Except.ok.injEq] at hok
  obtain ⟨_, _, _, _, _, a, s1, hpop, s2, hpush, rfl⟩ := hok
  obtain ⟨_, _, rfl⟩ := popValue_ok hpop
  obtain ⟨_, rfl⟩ := pushValue_ok hpush
  rfl

/-- A BRANCH whose condition, below the displacement, is not zero is not taken (rule R183). -/
theorem execBranch_pc (h : execBranch d s = .next t)
    (hcond : operandValue (descrFields d) s (s.sp - 8) ≠ 0) : t.pc = s.pc + BitVec.ofNat 64 2 := by
  have hok := ok_of_settle h ht
  simp only [bind_ok, Prod.exists, pure_ok, Except.ok.injEq] at hok
  obtain ⟨_, hdescr, off, s1, hoff, c, s2, hpop, rfl⟩ := hok
  obtain ⟨_, rfl⟩ := decodeDescr_ok.mp hdescr
  obtain ⟨_, _, rfl⟩ := popRaw_ok hoff
  obtain ⟨_, rfl, rfl⟩ := popValue_ok hpop
  exact congrArg State.pc (if_neg hcond)

theorem execStoreString_pc {literal : List Byte} (h : execStoreString literal s = .next t) :
    t.pc = s.pc + BitVec.ofNat 64 (2 + literal.length) := by
  by_cases hready : StoreStringReady literal s
  · cases (execStoreString_ready hready).symm.trans h
    rfl
  · cases (execStoreString_notReady hready).symm.trans h
    exact absurd rfl ht

/-- A reserved opcode always faults (rule R220). -/
theorem not_unimplemented_next : unimplemented s ≠ .next t := fun h => by
  simpa using ok_of_settle h ht

end

/-- Settles O9, by the instruction. -/
theorem pcAdvancesByTheEncodedLength : Obligations.PcAdvancesByTheEncodedLength := by
  intro i s t _ h ht
  cases i with
  | jump | call | ret => trivial
  | branch => exact execBranch_pc ht h
  | halt | ecall => cases h; rfl
  | push => exact execPush_pc ht h
  | pop => exact execPop_pc ht h
  | assign => exact execAssign_pc ht h
  | add | sub | and | or | xor | mul => exact arithmetic_pc ht h
  | shl | shr => exact shift_pc ht h
  | eql | neq | lss | gtr | leq | geq => exact comparison_pc ht h
  | convert => exact execConvert_pc ht h
  | storeString => exact execStoreString_pc ht h
  | load | store | quo | rem | jumpNoflag => exact absurd h (not_unimplemented_next ht)

end Sys2Proof.Machine
end

/-! ## The bits of a descriptor byte

The model reads a descriptor by slices and single bits; here each is said as a quotient or remainder of the byte's
number, where which bytes are valid is arithmetic. -/

section
namespace Sys2Proof

theorem descrSize_eq_mod (d : Byte) : descrSize d = d.toNat % 16 := by
  simp [descrSize]

theorem descrSigned_iff (d : Byte) : descrSigned d = true ↔ d.toNat / 16 % 2 = 1 := by
  simp [descrSigned, BitVec.getLsbD, Nat.testBit_eq_decide_div_mod_eq]

theorem descrIndirect_iff (d : Byte) : descrIndirect d = true ↔ d.toNat / 32 % 2 = 1 := by
  simp [descrIndirect, BitVec.getLsbD, Nat.testBit_eq_decide_div_mod_eq]

/-- Bits 7:6 of a byte are its quotient by 64, which is below 4 and so needs no reduction. -/
theorem highBits_toNat (d : Byte) : (d.extractLsb' 6 2).toNat = d.toNat / 64 := by
  have hlt : d.toNat / 64 < 2 ^ 2 := by have := d.isLt; omega
  rw [BitVec.extractLsb'_toNat, Nat.shiftRight_eq_div_pow]
  exact Nat.mod_eq_of_lt hlt

/-- Rule R110 in numbers: the width nibble is `descrSize`. -/
theorem validDescr_iff_size (d : Byte) : validDescr d = true ↔ d.toNat / 64 = 0 ∧
    (descrSize d = 1 ∨ descrSize d = 2 ∨ descrSize d = 4 ∨ descrSize d = 8) := by
  rw [← highBits_toNat]
  simp [validDescr, descrSize, ← BitVec.toNat_inj, or_assoc, -BitVec.extractLsb'_toNat]

theorem validDescr_iff_mod (d : Byte) : validDescr d = true ↔ d.toNat / 64 = 0 ∧
    (d.toNat % 16 = 1 ∨ d.toNat % 16 = 2 ∨ d.toNat % 16 = 4 ∨ d.toNat % 16 = 8) := by
  simp only [validDescr_iff_size, descrSize_eq_mod]

/-- With bits 7:6 zero, bits 5:4 are free: four bytes for each of the four widths. -/
theorem validDescr_iff_mem (d : Byte) : validDescr d = true ↔
    d ∈ ([0x01, 0x02, 0x04, 0x08, 0x11, 0x12, 0x14, 0x18, 0x21, 0x22, 0x24, 0x28, 0x31, 0x32, 0x34,
      0x38] : List Byte) := by
  simp only [validDescr_iff_mod, List.mem_cons, List.not_mem_nil, or_false, ← BitVec.toNat_inj,
    BitVec.reduceToNat]
  omega

/-- Settles O1. The three fields are read the same way from a byte that is not valid. -/
theorem descriptorDecoderReadsItsBits : Obligations.DescriptorDecoderReadsItsBits := fun b =>
  ⟨validDescr_iff_mod b, validDescr_iff_mem b, fun _ =>
    ⟨descrSize_eq_mod b, descrSigned_iff b, descrIndirect_iff b⟩⟩

end Sys2Proof
end

/-! ## PUSH, POP and ASSIGN

Each instruction that completes ends in one state, named here; its effect on the stack arena is read off that state.
PUSH followed by POP then follows from the two effects alone. -/

section
namespace Sys2Proof.Machine

/-- The state after a PUSH that completes (rule R130). -/
def pushedImmediate (d : Byte) (imm : Nat) (s : State) : State :=
  ((s.withStack (s.stack.writeBytes s.sp.toNat (leBytes (descrSize d) imm))).withSp
    (s.sp + BitVec.ofNat 64 (descrSize d))).advance (2 + descrSize d)

theorem execPush_ready {d : Byte} {imm : Nat} {s : State} (hvalid : validDescr d = true)
    (hfits : s.sp.toNat + descrSize d ≤ s.cfg.stackSize) :
    execPush d imm s = .next (pushedImmediate d imm s) := by
  simp only [execPush, decodeDescr_valid hvalid, ok_bind, descrFields_size, pushValue_fits hfits, pure_ok,
    settle_ok, pushedImmediate]

/-- Settles O21. -/
theorem pushStoresItsImmediate : Obligations.PushStoresItsImmediate := by
  intro d imm s hwf hvalid hfits
  exact ⟨_, execPush_ready hvalid hfits,
    stackEffect_of_written hwf rfl rfl rfl rfl rfl rfl rfl rfl rfl⟩

theorem execPop_ready {d : Byte} {s : State} (hvalid : validDescr d = true)
    (hdirect : descrIndirect d = false)
    (hready : descrSize d ≤ s.sp.toNat ∧ s.sp.toNat ≤ s.cfg.stackSize) :
    execPop d s = .next ((s.withSp (s.sp - BitVec.ofNat 64 (descrSize d))).advance 2) := by
  simp only [execPop, decodeDescr_valid hvalid, ok_bind, descrFields_indirect, hdirect, Bool.not_false,
    require_true, descrFields_size, popRaw_ready hready, pure_ok, settle_ok]

/-- Settles O22. -/
theorem popMovesOnlyTheStackPointer : Obligations.PopMovesOnlyTheStackPointer := by
  intro d s hvalid hdirect hbytes hinside
  exact ⟨_, execPop_ready hvalid hdirect ⟨hbytes, hinside⟩,
    stackEffect_of_unwritten rfl rfl rfl rfl rfl rfl rfl rfl rfl⟩

/-- The destination of ASSIGN: the frame slot that the offset below the payload names (rules R56, R133). -/
def assignAddr (d2 : Byte) (s : State) : Word :=
  frameAddr s (offsetValue s (belowOperand (descrFields d2) s.sp))

/-- The state after an ASSIGN that completes (rule R133). -/
def assigned (d1 d2 : Byte) (s : State) : State :=
  ((s.withSp (belowOperand (descrFields d2) s.sp - 8)).withStack
    (s.stack.writeBytes (assignAddr d2 s).toNat (leBytes (descrSize d1) (rightValue d2 s)))).advance 3

/-- The conditions under which ASSIGN stores its payload (rules R115, R117, R133). -/
structure AssignReady (d1 d2 : Byte) (s : State) : Prop where
  /-- `d1` is valid (rule R110). -/
  valid1 : validDescr d1 = true
  /-- `d2` is valid (rule R110). -/
  valid2 : validDescr d2 = true
  /-- The types match (rule R115). -/
  same : sameType (descrFields d1) (descrFields d2) = true
  /-- The destination is a frame slot. -/
  indirect : descrIndirect d1 = true
  /-- The payload can be read. -/
  payload : OperandReady (descrFields d2) s s.sp
  /-- The destination's offset lies below the payload. -/
  offset : OffsetReady s (belowOperand (descrFields d2) s.sp)
  /-- The destination lies in `S` (rule R55). -/
  fits : (assignAddr d2 s).toNat + descrSize d1 ≤ s.cfg.stackSize

theorem execAssign_ready {d1 d2 : Byte} {s : State} (h : AssignReady d1 d2 s) :
    execAssign d1 d2 s = .next (assigned d1 d2 s) := by
  have hoffset : popRaw 8 (s.withSp (belowOperand (descrFields d2) s.sp)) =
      .ok (offsetValue s (belowOperand (descrFields d2) s.sp),
        s.withSp (belowOperand (descrFields d2) s.sp - 8)) := popOffset_ready h.offset
  have hwrite := memWrite_inside (x := .stack) (v := rightValue d2 s)
    (s := s.withSp (belowOperand (descrFields d2) s.sp - 8)) h.fits
  rw [assignAddr, rightValue] at hwrite
  simp only [execAssign, decodePair_valid h.valid1 h.valid2, ok_bind, h.same, require_true,
    descrFields_indirect, h.indirect, popValue_ready h.payload, hoffset, frameAddr_withSp, descrFields_size,
    hwrite, pure_ok, settle_ok]
  rfl

/-- Settles O23. -/
theorem assignStoresToTheAddressedSlot : Obligations.AssignStoresToTheAddressedSlot := by
  intro d1 d2 s hwf hvalid1 hvalid2 hsame hindirect hpayload hoffset hfits
  exact ⟨_, execAssign_ready ⟨hvalid1, hvalid2, hsame, hindirect, hpayload, hoffset, hfits⟩,
    stackEffect_of_written hwf rfl rfl rfl rfl rfl rfl rfl rfl rfl⟩

/-- An effect followed by one that stores nothing: the registers of the second, the bytes of the first. -/
theorem StackEffect.trans_unwritten {s t u : State} {pc sp fp pc' sp' fp' : Word} {lo : Nat}
    {bytes : List Byte} (h : StackEffect s t pc sp fp lo bytes)
    (h' : StackEffect t u pc' sp' fp' 0 []) : StackEffect s u pc' sp' fp' lo bytes where
  pc := h'.pc
  sp := h'.sp
  fp := h'.fp
  written := (readBytes_congr fun _ _ => h'.kept _ (.inr (Nat.zero_le _))).trans h.written
  kept a ha := (h'.kept a (.inr (Nat.zero_le a))).trans (h.kept a ha)
  istore := h'.istore.trans h.istore
  mem := h'.mem.trans h.mem
  status := h'.status.trans h.status
  err := h'.err.trans h.err
  cfg := h'.cfg.trans h.cfg

/-- A stack pointer moved up inside `S` does not wrap, since `S` is smaller than the address space (rule R7). -/
theorem sp_add_toNat {s : State} (hcfg : s.cfg.WF) {n : Nat} (h : s.sp.toNat + n ≤ s.cfg.stackSize) :
    (s.sp + BitVec.ofNat 64 n).toNat = s.sp.toNat + n := by
  have hcap : s.cfg.stackSize < 2 ^ 63 := capacity_lt hcfg .stack
  rw [BitVec.toNat_add, BitVec.toNat_ofNat]
  omega

/-- Settles O39: the effect of PUSH, then that of POP, whose bytes the PUSH has put on the stack. -/
theorem pushThenPopLeavesTheStackPointer : Obligations.PushThenPopLeavesTheStackPointer := by
  intro d imm s hcfg hwf hvalid hdirect hfits
  obtain ⟨t, hpush, hpushed⟩ := pushStoresItsImmediate d imm s hwf hvalid hfits
  have hsp : t.sp.toNat = s.sp.toNat + descrSize d := by rw [hpushed.sp, sp_add_toNat hcfg hfits]
  obtain ⟨u, hpop, hpopped⟩ := popMovesOnlyTheStackPointer d t hvalid hdirect
    (by rw [hsp]; exact Nat.le_add_left _ _) (by rw [hsp, hpushed.cfg]; exact hfits)
  have hpcs : t.pc + 2 = s.pc + BitVec.ofNat 64 (4 + descrSize d) := by
    rw [hpushed.pc, BitVec.add_assoc, show (2 : Word) = BitVec.ofNat 64 2 from rfl, ← BitVec.ofNat_add]
    congr 2
    omega
  have hsps : t.sp - BitVec.ofNat 64 (descrSize d) = s.sp := by rw [hpushed.sp, BitVec.add_sub_cancel]
  rw [hpcs, hsps, hpushed.fp] at hpopped
  exact ⟨t, u, hpush, hpop, hpushed.trans_unwritten hpopped⟩

end Sys2Proof.Machine
end

/-! ## ADD, SUB, MUL, AND, OR and XOR

One lemma says what the template of rule R140 does once both operands can be read and their types match: it pushes
the value of its function. What is left of a statement is the number that the function stands for. -/

section
namespace Sys2Proof.Machine

/-- A result pushed where the operands were has the effect that the two-operand statements name (rule R120). -/
theorem pairPushes_of_pushedResult {i : Instr} {d1 d2 : Byte} {s : State} {w v : Nat} (hwf : s.stack.wf = true)
    (h : exec i s = .next (pushedResult d1 d2 w v s)) : PairPushes i d1 d2 s (leBytes w v) := by
  refine ⟨_, h, stackEffect_of_written hwf rfl ?_ rfl rfl rfl rfl rfl rfl rfl⟩
  rw [leBytes_length]
  rfl

/-- The operands of a two-operand instruction whose types match are values of the one width (rules R115, R140). -/
theorem operands_lt {d1 d2 : Byte} {s : State} (hsame : sameType (descrFields d1) (descrFields d2) = true) :
    leftValue d1 d2 s < modulus (descrSize d1) ∧ rightValue d2 s < modulus (descrSize d1) := by
  have hsize : descrSize d1 = descrSize d2 := by
    simp only [sameType, Bool.and_eq_true, beq_iff_eq, descrFields_size] at hsame
    exact hsame.1
  exact ⟨readLE_lt _ _ _, hsize ▸ readLE_lt _ _ _⟩

/-- `F_SUB` is the difference modulo `2^(8w)`: adding the two's-complement negation is subtracting (rule R142). -/
theorem natCast_subValue {w b : Nat} (a : Nat) (hb : b ≤ modulus w) :
    (subValue w a b : Int) = ((a : Int) - b) % modulus w := by
  calc (subValue w a b : Int)
      = ((a : Int) + ((modulus w : Int) - b)) % modulus w := by
        rw [subValue, Nat.add_mod_mod, Int.natCast_emod, Int.natCast_add, Int.natCast_sub hb]
    _ = ((a : Int) - b) % modulus w := by
        rw [show (a : Int) + ((modulus w : Int) - b) = (a : Int) - b + modulus w by ring, Int.add_emod_right]

/-- Settles O40: modulo `2^(8w)` the sum's reduction does not matter to the difference. -/
theorem subUndoesAdd : Obligations.SubUndoesAdd := by
  intro w a b (ha : a < modulus w) (hb : b < modulus w)
  have hcast : (subValue w (addValue w a b) b : Int) = a := by
    rw [natCast_subValue _ hb.le, addValue, Int.natCast_emod, Int.emod_sub_emod, Int.natCast_add,
      Int.add_sub_cancel]
    exact_mod_cast Nat.mod_eq_of_lt ha
  exact_mod_cast hcast

/-- The template of rule R140 completes with the value of its function. -/
theorem arithmetic_pairPushes {i : Instr} {d1 d2 : Byte} {s : State} {f : Nat → Nat → Nat → Nat}
    (hwf : s.stack.wf = true) (hready : PairReady d1 d2 s)
    (hsame : sameType (descrFields d1) (descrFields d2) = true)
    (hexec : exec i s = settle s (arithmetic f d1 d2 s)) :
    PairPushes i d1 d2 s
      (leBytes (descrSize d1) (f (descrSize d1) (leftValue d1 d2 s) (rightValue d2 s))) :=
  pairPushes_of_pushedResult hwf (by rw [hexec, arithmetic_ok.mpr ⟨hready, hsame, rfl⟩, settle_ok])

/-- Settles O24. -/
theorem addSubMulPushTheWrappedResult : Obligations.AddSubMulPushTheWrappedResult := by
  intro d1 d2 s hwf hready hsame
  have hsub : (((leftValue d1 d2 s : Int) - (rightValue d2 s : Int)) %
      (2 ^ (8 * descrSize d1) : Int)).toNat =
        subValue (descrSize d1) (leftValue d1 d2 s) (rightValue d2 s) := by
    have hcast := natCast_subValue (leftValue d1 d2 s) (operands_lt (s := s) hsame).2.le
    rw [modulus, Nat.cast_pow, Nat.cast_ofNat] at hcast
    rw [← hcast, Int.toNat_natCast]
  rw [hsub]
  exact ⟨arithmetic_pairPushes hwf hready hsame (f := addValue) rfl,
    arithmetic_pairPushes hwf hready hsame (f := subValue) rfl,
    arithmetic_pairPushes hwf hready hsame (f := mulValue) rfl⟩

/-- Settles O25: the results are values of the operands' width, because the operands are. -/
theorem andOrXorPushTheBitwiseResult : Obligations.AndOrXorPushTheBitwiseResult := by
  intro d1 d2 s hwf hready hsame
  obtain ⟨hleft, hright⟩ := operands_lt (s := s) hsame
  exact ⟨_, _, _, ⟨Nat.and_lt_two_pow _ hright, fun _ => Nat.testBit_and ..⟩,
    ⟨Nat.or_lt_two_pow hleft hright, fun _ => Nat.testBit_or ..⟩,
    ⟨Nat.xor_lt_two_pow hleft hright, fun _ => Nat.testBit_xor ..⟩,
    arithmetic_pairPushes hwf hready hsame (f := andValue) rfl,
    arithmetic_pairPushes hwf hready hsame (f := orValue) rfl,
    arithmetic_pairPushes hwf hready hsame (f := xorValue) rfl⟩

end Sys2Proof.Machine
end

/-! ## SHL and SHR

The closed forms for large counts (log entry 11) are the formulas of rules R151 and R152, so no count is ever
reduced. The sign of the count's reading decides whether the template of rule R150 completes or refuses. -/

section
namespace Sys2Proof

theorem natCast_modulus (w : Nat) : (modulus w : Int) = 2 ^ (8 * w) := by
  rw [modulus, Nat.cast_pow, Nat.cast_ofNat]

/-- The sign bit is worth half of `2^(8w)` (rule R8). -/
theorem modulus_eq_two_mul {w : Nat} (hw : 1 ≤ w) : modulus w = 2 * 2 ^ (8 * w - 1) :=
  (mul_pow_sub_one (by omega) 2).symm

theorem sval_neg_iff {w v : Nat} (hv : v < modulus w) : sval w v < 0 ↔ signBit w v = true := by
  cases hs : signBit w v
  · simp [sval_of_not_signBit hs]
  · simp [sval_of_signBit hs, hv]

theorem neg_two_pow_le_sval {w : Nat} (hw : 1 ≤ w) (v : Nat) : -(2 : Int) ^ (8 * w - 1) ≤ sval w v := by
  cases hs : signBit w v
  · rw [sval_of_not_signBit hs]
    have hpow : (0 : Int) ≤ 2 ^ (8 * w - 1) := by positivity
    omega
  · have hge : 2 ^ (8 * w - 1) ≤ v := Nat.ge_two_pow_of_testBit hs
    rw [sval_of_signBit hs, modulus_eq_two_mul hw]
    zify at hge
    push_cast
    omega

namespace Machine

theorem shlValue_eq (w : Nat) (signed : Bool) (a b : Nat) : shlValue w signed a b = a * 2 ^ b % modulus w := by
  rw [shlValue]
  split
  next hb => exact (Nat.mod_eq_zero_of_dvd (Nat.dvd_mul_left_of_dvd (Nat.pow_dvd_pow 2 hb) a)).symm
  next => rfl

/-- Of an operand that is not negative, SHR is the quotient: from the width on that is zero (rule R152). -/
theorem shrValue_logical {w a : Nat} {signed : Bool} (ha : a < modulus w)
    (hsign : (signed && signBit w a) = false) (b : Nat) : shrValue w signed a b = a / 2 ^ b := by
  simp only [shrValue, hsign, Bool.false_eq_true, if_false]
  split
  next hb => exact (Nat.div_eq_of_lt (ha.trans_le (Nat.pow_le_pow_right (by omega) hb))).symm
  next => rfl

/-- Of a negative operand and a count from `8w - 1` on, SHR is all ones (rule R152). -/
theorem shrValue_ones {w a b : Nat} (hsign : signBit w a = true) (hb : 8 * w - 1 ≤ b) :
    shrValue w true a b = modulus w - 1 := by
  simp [shrValue, hsign, hb]

/-- A negative value divided by at least the weight of its sign bit has the floor `-1` (rule R152). -/
theorem sval_div_eq_neg_one {w a b : Nat} (hw : 1 ≤ w) (ha : a < modulus w) (hsign : signBit w a = true)
    (hb : 8 * w - 1 ≤ b) : sval w a / 2 ^ b = -1 := by
  refine Int.ediv_eq_neg_one_of_neg_of_le ((sval_neg_iff ha).mpr hsign) ?_
  calc -sval w a ≤ 2 ^ (8 * w - 1) := Int.neg_le_of_neg_le (neg_two_pow_le_sval hw a)
    _ ≤ 2 ^ b := pow_le_pow_right₀ (by omega) hb

theorem natCast_shrValue_arithmetic {w a : Nat} (hw : 1 ≤ w) (ha : a < modulus w) (hsign : signBit w a = true)
    (b : Nat) : (shrValue w true a b : Int) = sval w a / 2 ^ b % modulus w := by
  have hpos : (0 : Int) < modulus w := by exact_mod_cast modulus_pos w
  by_cases hb : 8 * w - 1 ≤ b
  · rw [shrValue_ones hsign hb, sval_div_eq_neg_one hw ha hsign hb, Int.natCast_sub (modulus_pos w),
      ← Int.add_emod_right, Int.emod_eq_of_lt (by omega) (by omega)]
    omega
  · simp only [shrValue, hsign, Bool.and_self, if_true, if_neg hb]
    exact Int.toNat_of_nonneg (Int.emod_nonneg _ hpos.ne')

/-- SHR is the floor of the operand's own reading divided by `2^b`, modulo `2^(8w)`, for every count (rule R152). -/
theorem natCast_shrValue {w a : Nat} (hw : 1 ≤ w) (ha : a < modulus w) (signed : Bool) (b : Nat) :
    (shrValue w signed a b : Int) = (if signed then sval w a else (a : Int)) / 2 ^ b % modulus w := by
  cases hsign : signed && signBit w a
  case true =>
    obtain ⟨rfl, hneg⟩ := (Bool.and_eq_true ..).mp hsign
    exact natCast_shrValue_arithmetic hw ha hneg b
  case false =>
    have hreading : (if signed then sval w a else (a : Int)) = a := by
      cases signed
      · rfl
      · exact sval_of_not_signBit hsign
    rw [hreading, shrValue_logical ha hsign]
    exact_mod_cast (Nat.mod_eq_of_lt ((Nat.div_le_self a _).trans_lt ha)).symm

/-- Settles O46. -/
theorem shiftClosedFormsAreTheMathematicalShifts : Obligations.ShiftClosedFormsAreTheMathematicalShifts := by
  intro w a b hw ha
  refine ⟨fun sg => shlValue_eq w sg a b, shrValue_logical ha rfl b, ?_, shrValue_ones⟩
  rw [← natCast_modulus]
  exact natCast_shrValue hw ha true b

/-- Both ways of saying that a value of type `d` is negative: by its reading and by its sign bit (rules R9, R153). -/
theorem reading_neg_iff {d : Byte} {v : Nat} (hv : v < modulus (descrSize d)) :
    reading d v < 0 ↔ (descrSigned d && signBit (descrSize d) v) = true := by
  cases hs : descrSigned d
  · simp [reading, hs]
  · simp [reading, hs, sval_neg_iff hv]

theorem leftValue_lt (d1 d2 : Byte) (s : State) : leftValue d1 d2 s < modulus (descrSize d1) := readLE_lt _ _ _

theorem rightValue_lt (d : Byte) (s : State) : rightValue d s < modulus (descrSize d) := readLE_lt _ _ _

section
variable {d1 d2 : Byte} {s : State} {f : Nat → Bool → Nat → Nat → Nat} {i : Instr}

/-- The template of rule R150 refuses a negative count once both operands are popped (rule R153). -/
theorem shift_negativeCount (hready : PairReady d1 d2 s) (hneg : reading d2 (rightValue d2 s) < 0) :
    shift f d1 d2 s = .error .negativeShiftCount := by
  have hpop := (popOperands_ok.mpr ⟨hready, rfl, rfl, rfl⟩).2
  have hsign := (reading_neg_iff (rightValue_lt d2 s)).mp hneg
  simp only [shift, decodePair_valid hready.valid1 hready.valid2, ok_bind, hpop, descrFields_size,
    descrFields_signed, hsign, Bool.not_true, require_false, error_bind]

/-- The template of rule R150 completes with the value of its function for every other count. -/
theorem shift_pairPushes (hwf : s.stack.wf = true) (hready : PairReady d1 d2 s)
    (hcount : 0 ≤ reading d2 (rightValue d2 s)) (hexec : exec i s = settle s (shift f d1 d2 s)) :
    PairPushes i d1 d2 s (leBytes (descrSize d1)
      (f (descrSize d1) (descrSigned d1) (leftValue d1 d2 s) (rightValue d2 s))) := by
  have hsign := mt (reading_neg_iff (rightValue_lt d2 s)).mpr hcount.not_gt
  exact pairPushes_of_pushedResult hwf
    (by rw [hexec, shift_ok.mpr ⟨hready, Bool.eq_false_of_not_eq_true hsign, rfl⟩, settle_ok])

theorem raises_negativeShiftCount (hready : PairReady d1 d2 s) (hneg : reading d2 (rightValue d2 s) < 0)
    (hexec : exec i s = settle s (shift f d1 d2 s)) : Raises i s .negativeShiftCount := by
  rw [Raises, hexec, shift_negativeCount hready hneg]
  rfl

end

/-- Settles O19. A negative reading is a signed one, so the statement's premise that `d2` is signed is not used. -/
theorem negativeCountsRaiseNegativeShiftCount : Obligations.NegativeCountsRaiseNegativeShiftCount :=
  fun _ _ _ hready _ hneg =>
    ⟨raises_negativeShiftCount (f := shlValue) hready hneg rfl,
      raises_negativeShiftCount (f := shrValue) hready hneg rfl⟩

/-- Settles O26. -/
theorem shlPushesTheShiftedValue : Obligations.ShlPushesTheShiftedValue := by
  intro d1 d2 s hwf hready hcount
  have hpush := shift_pairPushes (i := .shl d1 d2) (f := shlValue) hwf hready hcount rfl
  rwa [shlValue_eq] at hpush

/-- Settles O27: what `natCast_shrValue` divides is the reading of `a`. -/
theorem shrPushesTheFlooredQuotient : Obligations.ShrPushesTheFlooredQuotient := by
  intro d1 d2 s hwf hready hcount
  rw [← natCast_modulus, reading, ← natCast_shrValue (size_pos_of_valid hready.valid1) (leftValue_lt d1 d2 s),
    Int.toNat_natCast]
  exact shift_pairPushes (f := shrValue) hwf hready hcount rfl

end Machine
end Sys2Proof
end

/-! ## EQL, NEQ, LSS, GTR, LEQ and GEQ

One lemma says what the template of rule R160 does once both operands can be read and their types match: it pushes
the truth byte of its relation. What is left of the statement is that the relation of the raw values is the relation
of the readings, `Less` being their strict order (rule R168) and LEQ and GEQ its negations. -/

section
namespace Sys2Proof.Machine

theorem leBytes_truthByte (p : Prop) [Decidable p] : leBytes 1 (truthByte (decide p)) = truthBytes p := by
  by_cases hp : p <;> simp [hp, truthBytes, truthByte, leBytes]

/-- Descriptors of the same type read a value alike (rules R9, R115). -/
theorem reading_eq_of_sameType {d1 d2 : Byte} (hsame : sameType (descrFields d1) (descrFields d2) = true)
    (v : Nat) : reading d1 v = reading d2 v := by
  simp only [sameType, Bool.and_eq_true, beq_iff_eq, descrFields_size, descrFields_signed] at hsame
  obtain ⟨hsize, hsigned⟩ := hsame
  rw [reading, reading, hsize, hsigned]

/-- `Less` at a descriptor's width and signedness is the order of its readings (rule R168). -/
theorem less_iff_reading {d : Byte} {x y : Nat} (hx : x < modulus (descrSize d)) (hy : y < modulus (descrSize d)) :
    less (descrSize d) (descrSigned d) x y = true ↔ reading d x < reading d y := by
  cases hsigned : descrSigned d
  case false => simp [reading, hsigned, less_unsigned]
  case true => simp [reading, hsigned, less_signed hx hy]

/-- The template of rule R160 completes with the truth byte of its relation. -/
theorem comparison_pairPushes {i : Instr} {d1 d2 : Byte} {s : State} {rel : Nat → Bool → Nat → Nat → Bool}
    {p : Prop} [Decidable p] (hwf : s.stack.wf = true) (hready : PairReady d1 d2 s)
    (hsame : sameType (descrFields d1) (descrFields d2) = true)
    (hexec : exec i s = settle s (comparison rel d1 d2 s))
    (hrel : rel (descrSize d1) (descrSigned d1) (leftValue d1 d2 s) (rightValue d2 s) = true ↔ p) :
    PairPushes i d1 d2 s (truthBytes p) := by
  rw [← leBytes_truthByte, ← Bool.eq_iff_iff.mpr (hrel.trans decide_eq_true_iff.symm)]
  exact pairPushes_of_pushedResult hwf (by rw [hexec, comparison_ok.mpr ⟨hready, hsame, rfl⟩, settle_ok])

/-- Settles O28: as the types match, one reading serves both operands, and `Less` orders it both ways round. -/
theorem comparisonsPushTheTruthByte : Obligations.ComparisonsPushTheTruthByte := by
  intro d1 d2 s hwf hready hsame
  obtain ⟨hleft, hright⟩ := operands_lt (s := s) hsame
  have hlss := less_iff_reading hleft hright
  have hgtr := less_iff_reading hright hleft
  rw [← reading_eq_of_sameType hsame]
  exact ⟨comparison_pairPushes (rel := relEql) hwf hready hsame rfl (by rw [relEql, decide_eq_true_iff]),
    comparison_pairPushes (rel := relNeq) hwf hready hsame rfl (by rw [relNeq, ← decide_not, decide_eq_true_iff]),
    comparison_pairPushes (rel := relLss) hwf hready hsame rfl hlss,
    comparison_pairPushes (rel := relGtr) hwf hready hsame rfl hgtr,
    comparison_pairPushes (rel := relLeq) hwf hready hsame rfl
      (by rw [relLeq, Bool.not_eq_true', ← Bool.not_eq_true, hgtr, not_lt]),
    comparison_pairPushes (rel := relGeq) hwf hready hsame rfl
      (by rw [relGeq, Bool.not_eq_true', ← Bool.not_eq_true, hlss, not_lt])⟩

end Sys2Proof.Machine
end

/-! ## CONVERT

The source is extended to 64 bits by its sign (rule R171). Modulo `2^64` that number is the source's own reading, so
its low bytes are the reading modulo `2^(8w)` at every width `w` a descriptor can name. -/

section
namespace Sys2Proof

theorem modulus_dvd_modulus {w w' : Nat} (h : w ≤ w') : modulus w ∣ modulus w' :=
  Nat.pow_dvd_pow 2 (Nat.mul_le_mul_left 8 h)

theorem modulus_le_modulus {w w' : Nat} (h : w ≤ w') : modulus w ≤ modulus w' :=
  Nat.le_of_dvd (modulus_pos w') (modulus_dvd_modulus h)

theorem extend64_unsigned (w v : Nat) : extend64 w false v = v := rfl

theorem extend64_of_not_signBit {w v : Nat} (h : signBit w v = false) : extend64 w true v = v := by
  simp [extend64, h]

theorem extend64_of_signBit {w v : Nat} (h : signBit w v = true) :
    extend64 w true v = v + (modulus 8 - modulus w) := by
  simp [extend64, h]

/-- Only the low bytes of a number matter to its `w` bytes, for the residue of a negative number too (rule R118). -/
theorem leBytes_of_modEq {w v : Nat} {x : Int} (h : (v : Int) ≡ x [ZMOD modulus w]) :
    leBytes w v = leBytes w (x % modulus w).toNat := by
  rw [← h.eq, ← Int.natCast_emod, Int.toNat_natCast, leBytes_mod]

namespace Machine

/-- The extension of rule R171 is the value's own reading modulo `2^64`: they differ by `2^64` for a negative one. -/
theorem extend64_modEq_reading {d : Byte} (hsize : descrSize d ≤ 8) (v : Nat) :
    (extend64 (descrSize d) (descrSigned d) v : Int) ≡ reading d v [ZMOD modulus 8] := by
  cases hsigned : descrSigned d
  case false => simp [reading, hsigned, extend64_unsigned]
  case true =>
    cases hneg : signBit (descrSize d) v
    case false => simp [reading, hsigned, extend64_of_not_signBit hneg, sval_of_not_signBit hneg]
    case true =>
      have hext : (extend64 (descrSize d) true v : Int) = sval (descrSize d) v + modulus 8 := by
        rw [extend64_of_signBit hneg, sval_of_signBit hneg, Int.natCast_add,
          Int.natCast_sub (modulus_le_modulus hsize)]
        omega
      rw [hext, reading, if_pos hsigned]
      exact Int.add_modEq_right

/-- The state after a CONVERT that completes (rule R171). -/
def converted (d1 d2 : Byte) (s : State) : State :=
  (((s.withSp (belowOperand (descrFields d1) s.sp)).withStack
    (s.stack.writeBytes (belowOperand (descrFields d1) s.sp).toNat
      (leBytes (descrSize d2)
        (extend64 (descrSize d1) (descrSigned d1) (operandValue (descrFields d1) s s.sp))))).withSp
    (belowOperand (descrFields d1) s.sp + BitVec.ofNat 64 (descrSize d2))).advance 3

theorem execConvert_ready {d1 d2 : Byte} {s : State} (hvalid1 : validDescr d1 = true)
    (hvalid2 : validDescr d2 = true) (hdirect : descrIndirect d2 = false)
    (hready : OperandReady (descrFields d1) s s.sp)
    (hfits : (belowOperand (descrFields d1) s.sp).toNat + descrSize d2 ≤ s.cfg.stackSize) :
    execConvert d1 d2 s = .next (converted d1 d2 s) := by
  have hpush := fun v => pushValue_fits (v := v) (s := s.withSp (belowOperand (descrFields d1) s.sp)) hfits
  simp only [execConvert, decodePair_valid hvalid1 hvalid2, ok_bind, descrFields_indirect, hdirect,
    Bool.not_false, require_true, popValue_ready hready, descrFields_size, descrFields_signed, hpush, pure_ok,
    settle_ok]
  rfl

/-- Settles O29: the pushed bytes are those of the reading, since `2^(8 w2)` divides `2^64`. -/
theorem convertPushesTheReadingAtTheNewWidth : Obligations.ConvertPushesTheReadingAtTheNewWidth := by
  intro d1 d2 s hwf hvalid1 hvalid2 hdirect hready hfits
  have hdvd : (modulus (descrSize d2) : Int) ∣ modulus 8 :=
    Int.natCast_dvd_natCast.mpr (modulus_dvd_modulus (size_le_of_valid hvalid2))
  have hreading := extend64_modEq_reading (size_le_of_valid hvalid1) (operandValue (descrFields d1) s s.sp)
  rw [← natCast_modulus, ← leBytes_of_modEq (hreading.of_dvd hdvd)]
  exact ⟨_, execConvert_ready hvalid1 hvalid2 hdirect hready hfits,
    stackEffect_of_written hwf rfl rfl rfl rfl rfl rfl rfl rfl rfl⟩

end Machine
end Sys2Proof
end

/-! ## JUMP, BRANCH, CALL and RETURN

A transfer that completes sets the three registers and stores at most one run of bytes, so its effect on the stack
arena is read off that one shape of state. RETURN is cut in two: what must be readable before anything moves, and the
stack move. The round trip of CALL and RETURN then follows from the effects alone. -/

section
namespace Sys2Proof.Machine

/-- `s` with the three registers given. -/
def withRegisters (pc sp fp : Word) (s : State) : State := ((s.withPc pc).withSp sp).withFp fp

section
variable (s : State) (pc sp fp v : Word)
@[simp] theorem withRegisters_withPc : withRegisters pc sp fp (s.withPc v) = withRegisters pc sp fp s := rfl
@[simp] theorem withRegisters_withSp : withRegisters pc sp fp (s.withSp v) = withRegisters pc sp fp s := rfl
@[simp] theorem withRegisters_withFp : withRegisters pc sp fp (s.withFp v) = withRegisters pc sp fp s := rfl
@[simp] theorem withSp_withStack (m : Memory) : (s.withSp v).withStack m = (s.withStack m).withSp v := rfl
@[simp] theorem withStack_withStack (m m' : Memory) : (s.withStack m).withStack m' = s.withStack m' := rfl

theorem jumpBy_eq_withRegisters (off : Nat) :
    s.jumpBy off = withRegisters (s.pc + BitVec.ofNat 64 off) s.sp s.fp s := rfl

theorem advance_eq_withRegisters (k : Nat) :
    s.advance k = withRegisters (s.pc + BitVec.ofNat 64 k) s.sp s.fp s := rfl
end

/-- A transfer that only moves registers. -/
theorem stackEffect_withRegisters (s : State) (pc sp fp : Word) :
    StackEffect s (withRegisters pc sp fp s) pc sp fp 0 [] :=
  stackEffect_of_unwritten rfl rfl rfl rfl rfl rfl rfl rfl rfl

/-- A transfer that moves registers and stores one run of bytes. -/
theorem stackEffect_withRegisters_written {s : State} (hwf : s.stack.wf) (pc sp fp : Word) (lo : Nat)
    (bytes : List Byte) :
    StackEffect s (withRegisters pc sp fp (s.withStack (s.stack.writeBytes lo bytes))) pc sp fp lo bytes :=
  stackEffect_of_written hwf rfl rfl rfl rfl rfl rfl rfl rfl rfl

theorem execJump_ready {s : State} (hoff : OffsetReady s s.sp) :
    execJump s =
      .next (withRegisters (s.pc + BitVec.ofNat 64 (offsetValue s s.sp)) (s.sp - 8) s.fp s) := by
  simp only [execJump, popOffset_ready hoff, ok_bind, pure_ok, settle_ok]
  simp [jumpBy_eq_withRegisters]

/-- Settles O30. -/
theorem jumpMovesByThePoppedOffset : Obligations.JumpMovesByThePoppedOffset := by
  intro s hoff
  exact ⟨_, execJump_ready hoff, stackEffect_withRegisters ..⟩

/-- BRANCH with its displacement and, below it, its condition on the stack (rule R183). -/
theorem execBranch_ready {d : Byte} {s : State} (hvalid : validDescr d = true) (hoff : OffsetReady s s.sp)
    (hcond : OperandReady (descrFields d) s (s.sp - 8)) :
    execBranch d s = .next (withRegisters
      (if operandValue (descrFields d) s (s.sp - 8) = 0 then
        s.pc + BitVec.ofNat 64 (offsetValue s s.sp) else s.pc + 2)
      (belowOperand (descrFields d) (s.sp - 8)) s.fp s) := by
  have hpop : popValue (descrFields d) (s.withSp (s.sp - 8)) =
      .ok (operandValue (descrFields d) s (s.sp - 8),
        s.withSp (belowOperand (descrFields d) (s.sp - 8))) := popValue_ready hcond
  simp only [execBranch, decodeDescr_valid hvalid, popOffset_ready hoff, hpop, ok_bind, pure_ok, settle_ok]
  split
  · simp [jumpBy_eq_withRegisters]
  · simp [advance_eq_withRegisters]

/-- Settles O31. -/
theorem branchIsTakenOnZero : Obligations.BranchIsTakenOnZero := by
  intro d s hvalid hoff hcond
  exact ⟨_, execBranch_ready hvalid hoff hcond, stackEffect_withRegisters ..⟩

/-- The second linkage word is pushed at the old `sp`, right behind the first, so the two are one run of bytes. -/
theorem execCall_ready {s : State} (hoff : 8 ≤ s.sp.toNat) (hroom : s.sp.toNat + 8 ≤ s.cfg.stackSize) :
    execCall s = .next (withRegisters (s.pc + BitVec.ofNat 64 (offsetValue s s.sp)) (s.sp + 8) (s.sp + 8)
      (s.withStack (s.stack.writeBytes (s.sp - 8).toNat
        (leBytes 8 s.fp.toNat ++ leBytes 8 (s.pc + 1).toNat)))) := by
  have hlow : (s.sp - 8).toNat = s.sp.toNat - 8 := toNat_sub_ofNat hoff
  have hback : s.sp - 8 + BitVec.ofNat 64 8 = s.sp := BitVec.sub_add_cancel s.sp 8
  have hfirst := pushValue_fits (w := 8) (v := s.fp.toNat) (s := s.withSp (s.sp - 8))
    (by simp only [withSp_sp, withSp_cfg, hlow]; omega)
  simp only [withSp_sp, withSp_stack, hback] at hfirst
  have hsecond := pushValue_fits (w := 8) (v := (s.pc + 1).toNat)
    (s := ((s.withSp (s.sp - 8)).withStack
      (s.stack.writeBytes (s.sp - 8).toNat (leBytes 8 s.fp.toNat))).withSp s.sp) hroom
  simp only [execCall, popOffset_ready ⟨hoff, Nat.le_of_add_right_le hroom⟩, hfirst, hsecond, ok_bind,
    pure_ok, settle_ok]
  rw [writeBytes_append, leBytes_length, hlow, Nat.sub_add_cancel hoff]
  simp [jumpBy_eq_withRegisters]

/-- Settles O32. -/
theorem callSavesLinkageAndOpensAFrame : Obligations.CallSavesLinkageAndOpensAFrame := by
  intro s _ hwf hoff hroom
  exact ⟨_, execCall_ready hoff hroom, stackEffect_withRegisters_written hwf ..⟩

/-- Both linkage words of RETURN lie in `S` (rules R55, R186). -/
structure LinkageReady (s : State) : Prop where
  /-- The return address, right below `fp`. -/
  pc : (s.fp - 8).toNat + 8 ≤ s.cfg.stackSize
  /-- The caller's frame pointer, below that. -/
  fp : (s.fp - 16).toNat + 8 ≤ s.cfg.stackSize

theorem linkageReady_of_frame {s : State} (hlow : 16 ≤ s.fp.toNat) (hhigh : s.fp.toNat ≤ s.cfg.stackSize) :
    LinkageReady s := by
  constructor <;> bv_omega

/-- In a configuration of rule R7 a linkage word below address 0 wraps to one far beyond `S`. -/
theorem frame_of_linkageReady {s : State} (hcfg : s.cfg.WF) (h : LinkageReady s) :
    16 ≤ s.fp.toNat ∧ s.fp.toNat ≤ s.cfg.stackSize := by
  have hcap : s.cfg.stackSize < 2 ^ 63 := capacity_lt hcfg .stack
  obtain ⟨hpc, hfp⟩ := h
  bv_omega

/-- The return address, read below `fp` (rule R186). -/
def savedPc (s : State) : Word := BitVec.ofNat 64 (s.stack.readLE (s.fp - 8).toNat 8)

/-- The caller's frame pointer, read below the return address (rule R186). -/
def savedFp (s : State) : Word := BitVec.ofNat 64 (s.stack.readLE (s.fp - 16).toNat 8)

theorem savedPc_of_frame {s : State} (hlow : 16 ≤ s.fp.toNat) :
    savedPc s = BitVec.ofNat 64 (s.stack.readLE (s.fp.toNat - 8) 8) := by
  rw [savedPc, show (s.fp - 8).toNat = s.fp.toNat - 8 from toNat_sub_ofNat (Nat.le_trans (by decide) hlow)]

theorem savedFp_of_frame {s : State} (hlow : 16 ≤ s.fp.toNat) :
    savedFp s = BitVec.ofNat 64 (s.stack.readLE (s.fp.toNat - 16) 8) := by
  rw [savedFp, show (s.fp - 16).toNat = s.fp.toNat - 16 from toNat_sub_ofNat hlow]

section
variable {d : Byte} {t : Option Descr} {s : State} (hdecode : decodeReturn d = .ok t)
include hdecode

/-- RETURN whose adjustment and linkage words can be read ends as its stack move does. -/
theorem execReturn_ready (hadj : OffsetReady s s.sp) (hlink : LinkageReady s) :
    execReturn d s = settle s
      ((returnStack t (offsetValue s s.sp) (s.withSp (s.sp - 8))).map
        fun u => (u.withPc (savedPc s)).withFp (savedFp s)) := by
  have hpc := memRead_inside (x := .stack) (s := s.withSp (s.sp - 8)) hlink.pc
  have hfp := memRead_inside (x := .stack) (s := s.withSp (s.sp - 8)) hlink.fp
  simp only [execReturn, hdecode, popOffset_ready hadj, hpc, hfp, ok_bind]
  rfl

theorem execReturn_notReady (h : ¬(OffsetReady s s.sp ∧ LinkageReady s)) :
    execReturn d s = .next (takeFault .outOfBounds s) := by
  by_cases hadj : OffsetReady s s.sp
  · by_cases hpc : (s.fp - 8).toNat + 8 ≤ s.cfg.stackSize
    · have hfp : ¬(s.fp - 16).toNat + 8 ≤ s.cfg.stackSize := fun hfp => h ⟨hadj, hpc, hfp⟩
      have hreadPc := memRead_inside (x := .stack) (s := s.withSp (s.sp - 8)) hpc
      have hreadFp := memRead_outside (x := .stack) (s := s.withSp (s.sp - 8)) hfp
      simp only [execReturn, hdecode, popOffset_ready hadj, hreadPc, hreadFp, ok_bind, error_bind, settle_error]
    · have hreadPc := memRead_outside (x := .stack) (s := s.withSp (s.sp - 8)) hpc
      simp only [execReturn, hdecode, popOffset_ready hadj, hreadPc, ok_bind, error_bind, settle_error]
  · simp only [execReturn, hdecode, popOffset_notReady hadj, ok_bind, error_bind, settle_error]

/-- A stack move outside `S` faults like the reads before it. -/
theorem execReturn_notMoved
    (hmove : returnStack t (offsetValue s s.sp) (s.withSp (s.sp - 8)) = .error .outOfBounds) :
    execReturn d s = .next (takeFault .outOfBounds s) := by
  by_cases hready : OffsetReady s s.sp ∧ LinkageReady s
  · rw [execReturn_ready hdecode hready.1 hready.2, hmove]
    rfl
  · exact execReturn_notReady hdecode hready

end

theorem decodeReturn_valid {d : Byte} (h : validDescr d = true) :
    decodeReturn d = .ok (some (descrFields d)) := by
  obtain ⟨rfl, _⟩ | ⟨_, hdecode⟩ | ⟨_, hinvalid, _⟩ := decodeReturn_cases d
  · exact absurd h (by decide)
  · exact hdecode
  · exact absurd h (by simp [hinvalid])

/-- The payload of RETURN can be read and fits at the new `sp` (rule R186). -/
theorem returnStack_moved {t : Descr} {a : Nat} {s : State} (hpayload : OperandReady t s s.sp)
    (hfits : (s.fp + BitVec.ofNat 64 a).toNat + t.size ≤ s.cfg.stackSize) :
    returnStack (some t) a s = .ok ((s.withStack (s.stack.writeBytes (s.fp + BitVec.ofNat 64 a).toNat
      (leBytes t.size (operandValue t s s.sp)))).withSp
        (s.fp + BitVec.ofNat 64 a + BitVec.ofNat 64 t.size)) := by
  rw [returnStack_some hpayload, BitVec.add_comm, pushValue_fits hfits]
  rfl

/-- The payload of RETURN cannot be read or does not fit at the new `sp`. -/
theorem returnStack_notMoved {t : Descr} {a : Nat} {s : State}
    (h : ¬OperandReady t s s.sp ∨ s.cfg.stackSize < (s.fp + BitVec.ofNat 64 a).toNat + t.size) :
    returnStack (some t) a s = .error .outOfBounds := by
  by_cases hpayload : OperandReady t s s.sp
  · have hover := h.resolve_left (not_not_intro hpayload)
    rw [returnStack_some hpayload, BitVec.add_comm, pushValue_over hover]
  · exact returnStack_notReady hpayload a

/-- Settles O18: first what is read before anything moves, then the stack move. -/
theorem returnOutsideTheStackRaisesOutOfBounds : Obligations.ReturnOutsideTheStackRaisesOutOfBounds := by
  constructor
  · intro s d hoperand hcfg hframe
    have hlink : ¬LinkageReady s := fun hlink => by
      have := frame_of_linkageReady hcfg hlink
      omega
    have hnotReady : ¬(OffsetReady s s.sp ∧ LinkageReady s) := fun h => hlink h.2
    obtain rfl | hvalid := hoperand
    · exact execReturn_notReady (t := none) rfl hnotReady
    · exact execReturn_notReady (decodeReturn_valid hvalid) hnotReady
  · intro s d hvalid hpayload
    exact execReturn_notMoved (decodeReturn_valid hvalid)
      (returnStack_notMoved (s := s.withSp (s.sp - 8)) hpayload)

theorem execReturn_null {s : State} (hadj : OffsetReady s s.sp) (hlink : LinkageReady s) :
    execReturn 0 s = .next (withRegisters (savedPc s) (s.fp + BitVec.ofNat 64 (offsetValue s s.sp))
      (savedFp s) s) := by
  rw [execReturn_ready (d := 0) (t := none) rfl hadj hlink, returnStack_none, BitVec.add_comm]
  rfl

/-- Settles O33. -/
theorem returnNullRestoresTheFrame : Obligations.ReturnNullRestoresTheFrame := by
  intro s hadj hlow hhigh
  rw [← savedPc_of_frame hlow, ← savedFp_of_frame hlow]
  exact ⟨_, execReturn_null hadj (linkageReady_of_frame hlow hhigh), stackEffect_withRegisters ..⟩

/-- The top of the stack that RETURN restores, where its payload goes (rule R186). -/
def returnTop (s : State) : Word := s.fp + BitVec.ofNat 64 (offsetValue s s.sp)

theorem execReturn_payload {d : Byte} {s : State} (hvalid : validDescr d = true) (hadj : OffsetReady s s.sp)
    (hlink : LinkageReady s) (hpayload : OperandReady (descrFields d) s (s.sp - 8))
    (hfits : (returnTop s).toNat + descrSize d ≤ s.cfg.stackSize) :
    execReturn d s = .next (withRegisters (savedPc s) (returnTop s + BitVec.ofNat 64 (descrSize d)) (savedFp s)
      (s.withStack (s.stack.writeBytes (returnTop s).toNat
        (leBytes (descrSize d) (operandValue (descrFields d) s (s.sp - 8)))))) := by
  rw [execReturn_ready (decodeReturn_valid hvalid) hadj hlink,
    returnStack_moved (s := s.withSp (s.sp - 8)) hpayload hfits]
  rfl

/-- Settles O34. -/
theorem returnPayloadIsPushedAtTheNewTop : Obligations.ReturnPayloadIsPushedAtTheNewTop := by
  intro d s hwf hvalid hadj hlow hhigh hpayload hfits
  rw [← savedPc_of_frame hlow, ← savedFp_of_frame hlow]
  exact ⟨_, execReturn_payload hvalid hadj (linkageReady_of_frame hlow hhigh) hpayload hfits,
    stackEffect_withRegisters_written hwf ..⟩

/-- Every instruction keeps the canonical form of `S`. -/
theorem exec_stack_wf {i : Instr} {s t : State} (h : exec i s = .next t) (hwf : s.stack.wf) : t.stack.wf := by
  cases exec_effect h with
  | fault | halt | ecall | storeString => exact hwf
  | stackOnly _ hstack => exact hstack.stackWf hwf

/-- The eight bytes of a register read back as the register (rules R50, R185). -/
theorem ofNat_readLE_of_readBytes {m : Memory} {a : Nat} {v : Word} (h : m.readBytes a 8 = leBytes 8 v.toNat) :
    BitVec.ofNat 64 (m.readLE a 8) = v := by
  have hmod : v.toNat % modulus 8 = v.toNat := Nat.mod_eq_of_lt v.isLt
  rw [Memory.readLE, h, leValue_leBytes, hmod, BitVec.ofNat_toNat, BitVec.setWidth_eq]

/-- A read that meets no stored byte gives what it gave before. -/
theorem StackEffect.readBytes_kept {s t : State} {pc sp fp : Word} {lo : Nat} {bytes : List Byte}
    (h : StackEffect s t pc sp fp lo bytes) {a n : Nat} (hout : a + n ≤ lo ∨ lo + bytes.length ≤ a) :
    t.stack.readBytes a n = s.stack.readBytes a n :=
  readBytes_congr fun _ _ => h.kept _ (by omega)

/-- The two linkage words are each read where they lie: the saved `fp`, and right behind it the return address. -/
theorem StackEffect.linkage_words {s t : State} {pc sp fp x y : Word} {lo : Nat}
    (h : StackEffect s t pc sp fp lo (leBytes 8 x.toNat ++ leBytes 8 y.toNat)) :
    t.stack.readBytes lo 8 = leBytes 8 x.toNat ∧ t.stack.readBytes (lo + 8) 8 = leBytes 8 y.toNat := by
  have hboth := h.written
  rw [List.length_append, leBytes_length, leBytes_length, readBytes_append] at hboth
  exact List.append_inj hboth (by simp)

/-- Settles O41: the effects of CALL and PUSH leave the linkage words right below the new frame and the adjustment
on top of the stack, where RETURN reads them. -/
theorem callThenReturnRestoresTheCaller : Obligations.CallThenReturnRestoresTheCaller := by
  intro s a hcfg hwf hoff hroom
  have hbase : (s.sp - 8).toNat = s.sp.toNat - 8 := toNat_sub_ofNat hoff
  have hframe : (s.sp + 8).toNat = s.sp.toNat + 8 := sp_add_toNat hcfg (n := 8) (by omega)
  obtain ⟨t, hcall, hcalled⟩ := callSavesLinkageAndOpensAFrame s hcfg hwf hoff (by omega)
  have htsp : t.sp.toNat = s.sp.toNat + 8 := by rw [hcalled.sp, hframe]
  have htroom : t.sp.toNat + 8 ≤ t.cfg.stackSize := by rw [htsp, hcalled.cfg]; omega
  obtain ⟨u, hpush, hpushed⟩ := pushStoresItsImmediate 0x08 a.toNat t (exec_stack_wf hcall hwf) rfl htroom
  have husp : u.sp.toNat = s.sp.toNat + 16 := by
    rw [hpushed.sp, ← Nat.add_assoc s.sp.toNat 8 8, ← htsp]
    exact sp_add_toNat (by rw [hcalled.cfg]; exact hcfg) htroom
  have hufp : u.fp.toNat = s.sp.toNat + 8 := by rw [hpushed.fp, hcalled.fp, hframe]
  have husize : u.cfg.stackSize = s.cfg.stackSize := by rw [hpushed.cfg, hcalled.cfg]
  obtain ⟨v, hret, hreturned⟩ := returnNullRestoresTheFrame u (by omega) (by omega) (by omega)
  obtain ⟨hwordFp, hwordPc⟩ := hcalled.linkage_words
  have hpc : BitVec.ofNat 64 (u.stack.readLE (u.fp.toNat - 8) 8) = s.pc + 1 := by
    apply ofNat_readLE_of_readBytes
    rw [hpushed.readBytes_kept (.inl (by omega)),
      show u.fp.toNat - 8 = (s.sp - 8).toNat + 8 by omega, hwordPc]
  have hfp : BitVec.ofNat 64 (u.stack.readLE (u.fp.toNat - 16) 8) = s.fp := by
    apply ofNat_readLE_of_readBytes
    rw [hpushed.readBytes_kept (.inl (by omega)), show u.fp.toNat - 16 = (s.sp - 8).toNat by omega, hwordFp]
  have hadj : BitVec.ofNat 64 (offsetValue u u.sp) = a := by
    have htop : u.sp - 8 = t.sp := by rw [hpushed.sp]; exact BitVec.add_sub_cancel t.sp 8
    rw [offsetValue, htop]
    exact ofNat_readLE_of_readBytes hpushed.written
  refine ⟨t, u, v, hcall, hpush, hret, hreturned.pc.trans hpc, hreturned.fp.trans hfp, ?_, ?_⟩
  · rw [hreturned.sp, hadj, hpushed.fp, hcalled.fp]
  · rw [hreturned.status, hpushed.status, hcalled.status]

end Sys2Proof.Machine
end

/-! ## HALT, ECALL, STORE_STRING and the reserved opcodes

STORE_STRING copies its string exactly when `StoreStringReady` holds, and faults otherwise. The host reads the bytes
of `M` up to the first zero byte; that one fact says what it reads after a STORE_STRING and that it stays inside the
window. -/

section
namespace Sys2Proof.Machine

/-- Settles O35. -/
theorem haltBecomesHaltedPastItsByte : Obligations.HaltBecomesHaltedPastItsByte := fun _ => rfl

/-- Settles O36. -/
theorem ecallTakesTheTrap : Obligations.EcallTakesTheTrap := fun _ => rfl

/-- Settles O38: each of the five is the fault of rule R220. -/
theorem reservedOpcodesRaiseUnimplementedInstruction :
    Obligations.ReservedOpcodesRaiseUnimplementedInstruction := fun _ => ⟨rfl, rfl, rfl, rfl, rfl⟩

theorem resume_of_trapped {s : State} (h : s.status = .trapped) : resume s = s.withStatus .running := by
  simp only [resume, h]

theorem resume_of_not_trapped {s : State} (h : s.status ≠ .trapped) : resume s = s := by
  obtain ⟨htrapped, _⟩ | ⟨_, hholds⟩ := resume_cases s
  · exact absurd htrapped h
  · exact hholds

/-- Settles O44: the return from the trap of a running machine undoes the trap's change of status. -/
theorem resumeLeavesOnlyTrapped : Obligations.ResumeLeavesOnlyTrapped := by
  refine ⟨fun _ => resume_of_trapped, fun _ => resume_of_not_trapped, fun s hrun => ⟨takeTrap s, rfl, ?_⟩⟩
  rw [resume_of_trapped (takeTrap_status s), ← hrun]
  rfl

theorem inWindow_iff {c : Config} {a n : Nat} : inWindow c a n = true ↔ c.devBase ≤ a ∧ a + n ≤ c.devLimit := by
  simp only [inWindow, Bool.and_eq_true, decide_eq_true_eq]

/-- Settles O20. -/
theorem storeStringOutsideTheWindowRaisesOutOfBounds :
    Obligations.StoreStringOutsideTheWindowRaisesOutOfBounds := by
  intro s literal _ houtside
  refine execStoreString_notReady fun hready => ?_
  obtain ⟨hbase, hlimit⟩ := inWindow_iff.mp hready.window
  exact houtside.elim (Nat.not_lt_of_le hbase) (Nat.not_lt_of_le hlimit)

/-- In a configuration of rule R7 the device window lies in `M`, so a string in the window does too. -/
theorem storeStringReady_of_window {literal : List Byte} {s : State} (hcfg : s.cfg.WF)
    (haddress : OperandReady addressDescr s s.sp) (hbase : s.cfg.devBase ≤ operandValue addressDescr s s.sp)
    (hlimit : operandValue addressDescr s s.sp + (literal.length + 1) ≤ s.cfg.devLimit) :
    StoreStringReady literal s where
  address := haddress
  window := inWindow_iff.mpr ⟨hbase, hlimit⟩
  fits := by
    obtain ⟨_, _, _, _, _, _, _, hwindow, _⟩ := hcfg
    exact hlimit.trans hwindow

/-- The string that STORE_STRING stores is read back with its terminator. -/
theorem storedString_readBytes {s : State} (hwf : s.mem.wf = true) (literal : List Byte) :
    (storedString literal s).mem.readBytes (operandValue addressDescr s s.sp) (literal.length + 1) =
      literal ++ [0] := by
  have hread := readBytes_writeBytes hwf (operandValue addressDescr s s.sp) (literal ++ [0])
  rwa [List.length_append] at hread

/-- Settles O37. -/
theorem storeStringCopiesItsLiteral : Obligations.StoreStringCopiesItsLiteral := by
  intro literal s hcfg hwf haddress hbase hlimit
  refine ⟨_, execStoreString_ready (storeStringReady_of_window hcfg haddress hbase hlimit),
    storedString_readBytes hwf literal, fun a hout => ?_, ?_, rfl, rfl, rfl, rfl, rfl, rfl, rfl⟩
  · exact getByte_writeBytes_other _ _ (by rwa [List.length_append])
  · rw [show 1 + (literal.length + 1) = 2 + literal.length by omega]
    rfl

/-- One byte of the host's read of a stopped machine: a zero byte ends it (rules R36, R207). -/
theorem hostReads_succ {s : State} (hstop : s.status ≠ .running) {a : Nat} (hin : a < s.cfg.memSize)
    (fuel : Nat) : hostReads s (fuel + 1) a =
      if s.mem.getByte a = 0 then [] else s.mem.getByte a :: hostReads s fuel (a + 1) := by
  have hquery : memQuery a s = some (s.mem.getByte a) := by rw [memQuery, query, if_neg hstop]; exact if_pos hin
  simp only [hostReads, hquery]

/-- The host reads the bytes before the first zero byte, when `M` and its limit reach so far. -/
theorem hostReads_eq_readBytes {s : State} (hstop : s.status ≠ .running) {fuel a n : Nat} (hn : n < fuel)
    (hin : a + fuel ≤ s.cfg.memSize) (hnonzero : ∀ k < n, s.mem.getByte (a + k) ≠ 0)
    (hzero : s.mem.getByte (a + n) = 0) : hostReads s fuel a = s.mem.readBytes a n := by
  induction n generalizing fuel a with
  | zero =>
    obtain ⟨fuel, rfl⟩ := Nat.exists_eq_succ_of_ne_zero (Nat.ne_zero_of_lt hn)
    rw [hostReads_succ hstop (by omega), if_pos (by simpa using hzero), Memory.readBytes]
  | succ n ih =>
    obtain ⟨fuel, rfl⟩ := Nat.exists_eq_succ_of_ne_zero (Nat.ne_zero_of_lt hn)
    have hrest : hostReads s fuel (a + 1) = s.mem.readBytes (a + 1) n := by
      refine ih (by omega) (by omega) (fun k hk => ?_) ?_
      · rw [Nat.add_right_comm]
        exact hnonzero (k + 1) (by omega)
      · rwa [Nat.add_right_comm]
    rw [hostReads_succ hstop (by omega), if_neg (by simpa using hnonzero 0 n.succ_pos), hrest, Memory.readBytes]

/-- The host's string ends before the first zero byte of the window. -/
theorem hostString_eq_readBytes {s : State} (hcfg : s.cfg.WF) (hstop : s.status ≠ .running) {n : Nat}
    (hn : n < s.cfg.devLimit - s.cfg.devBase) (hnonzero : ∀ k < n, s.mem.getByte (s.cfg.devBase + k) ≠ 0)
    (hzero : s.mem.getByte (s.cfg.devBase + n) = 0) : hostString s = s.mem.readBytes s.cfg.devBase n := by
  obtain ⟨_, _, _, _, _, _, hbase, hlimit, _⟩ := hcfg
  exact hostReads_eq_readBytes hstop hn (by omega) hnonzero hzero

/-- Settles O43: the last byte of the window is zero, so there is a first zero byte. -/
theorem hostReadEndsInsideTheWindow : Obligations.HostReadEndsInsideTheWindow := by
  intro s hinv hstop
  obtain ⟨_, _, _, _, _, _, hbase, _, _⟩ := hinv.cfg
  have hlast : s.mem.getByte (s.cfg.devBase + (s.cfg.devLimit - 1 - s.cfg.devBase)) = 0 := by
    rw [Nat.add_sub_of_le (by omega), hinv.lastZero]
  have hexists : ∃ n, s.mem.getByte (s.cfg.devBase + n) = 0 := ⟨_, hlast⟩
  have hinside : Nat.find hexists < s.cfg.devLimit - s.cfg.devBase := by
    have := Nat.find_min' hexists hlast
    omega
  exact ⟨Nat.find hexists, hinside, Nat.find_spec hexists,
    hostString_eq_readBytes hinv.cfg hstop hinside (fun _ => Nat.find_min hexists) (Nat.find_spec hexists)⟩

theorem getByte_mem_readBytes (m : Memory) (a : Nat) {n k : Nat} (h : k < n) :
    m.getByte (a + k) ∈ m.readBytes a n := by
  rw [← getElem_readBytes m a n k h]
  exact List.getElem_mem _

/-- A literal and its terminator in the window are what the host reads: the literal has no zero byte (rule R88). -/
theorem hostString_of_readBytes {s : State} (hcfg : s.cfg.WF) (hstop : s.status ≠ .running) {literal : List Byte}
    (hliteral : ∀ b ∈ literal, b ≠ 0) (hlimit : s.cfg.devBase + (literal.length + 1) ≤ s.cfg.devLimit)
    (hread : s.mem.readBytes s.cfg.devBase (literal.length + 1) = literal ++ [0]) : hostString s = literal := by
  rw [readBytes_append] at hread
  obtain ⟨hbytes, hterminator⟩ := List.append_inj hread (readBytes_length ..)
  have hnonzero : ∀ k < literal.length, s.mem.getByte (s.cfg.devBase + k) ≠ 0 := fun k hk => by
    have hmem := getByte_mem_readBytes s.mem s.cfg.devBase hk
    rw [hbytes] at hmem
    exact hliteral _ hmem
  rw [hostString_eq_readBytes hcfg hstop (by omega) hnonzero (List.cons.inj hterminator).1, hbytes]

/-- Settles O42: the stored string is what stands at `DEV_BASE`, and the trap keeps `M`. -/
theorem hostReadsTheStoredString : Obligations.HostReadsTheStoredString := by
  intro literal s hcfg hwf hwellFormed haddress hbase hlimit
  have hready := storeStringReady_of_window hcfg haddress hbase.ge (by rwa [addressDescr, hbase])
  have hread := storedString_readBytes hwf literal
  rw [addressDescr, hbase] at hread
  have hliteral : ∀ b ∈ literal, b ≠ 0 := by simpa [Instr.wellFormed] using hwellFormed
  exact ⟨storedString literal s, takeTrap (storedString literal s), execStoreString_ready hready, rfl, rfl, rfl, rfl,
    hostString_of_readBytes (s := takeTrap (storedString literal s)) hcfg (by simp) hliteral hlimit hread⟩

end Sys2Proof.Machine
end

/-! ## The load -/

section
namespace Sys2Proof.Machine

theorem load_fits {c : Config} {image : List Byte} (h : image.length ≤ c.istoreSize) :
    load c image = ⟨c, 0, 0, 0, .running, none, Memory.ofBytes 0 image, [], []⟩ := if_pos h

theorem load_oversized {c : Config} {image : List Byte} (h : c.istoreSize < image.length) :
    load c image = ⟨c, 0, 0, 0, .illegal, some .bytecodeTooLarge, [], [], []⟩ := if_neg (Nat.not_le_of_lt h)

/-- Settles O58: a byte of `I` is the image's byte, and the default of `getD` beyond it. -/
theorem loadPlacesTheImageAndZeroesTheRest : Obligations.LoadPlacesTheImageAndZeroesTheRest := by
  intro c image hfits
  have hbyte : ∀ k, (Memory.ofBytes 0 image).getByte k = image.getD k 0 := fun k => by
    simpa using getByte_ofBytes 0 image k
  rw [load_fits hfits]
  refine ⟨rfl, rfl, rfl, rfl, rfl, fun k hk => ?_, fun k hk => ?_, fun _ => rfl, fun _ => rfl⟩
  · rw [hbyte, List.getD_eq_getElem _ _ hk]
  · rw [hbyte, List.getD_eq_default _ _ hk]

/-- Settles O59: the two sides of the store's size. -/
theorem oversizedLoadFailsWithNothingStored : Obligations.OversizedLoadFailsWithNothingStored := by
  constructor
  · intro c image hover
    rw [load_oversized hover]
    exact ⟨rfl, rfl, rfl, rfl, rfl, fun _ => ⟨rfl, rfl, rfl⟩, rfl⟩
  · intro c image hexact
    rw [load_fits hexact.le]
    exact ⟨rfl, rfl⟩

end Sys2Proof.Machine
end

/-! ## What a fault changes, and what leaves a stopped machine -/

section
namespace Sys2Proof.Machine

/-- Settles O11: of the five ways in which an instruction can end only the fault makes the status Illegal. -/
theorem faultsArePrecise : Obligations.FaultsArePrecise := by
  intro s t hrun hstep hillegal
  obtain ⟨hstop, _⟩ | ⟨_, k, _, rfl⟩ | ⟨_, i, _, hexec⟩ := step_cases hstep
  · exact absurd hrun hstop
  · exact ⟨k, rfl⟩
  · cases exec_effect hexec with
    | fault _ k => exact ⟨k, rfl⟩
    | stackOnly _ hstack => exact absurd (hstack.status.symm.trans hillegal) (by simp [hrun])
    | halt | ecall => simp at hillegal
    | storeString => simp [hrun] at hillegal

/-- Neither of the events that are no load changes a machine that has halted or taken a fault (rules R37, R241). -/
theorem deliver_final {s : State} (hfinal : s.status = .illegal ∨ s.status = .halted) {e : HostEvent}
    (he : ∀ image, e ≠ .load image) : deliver s e = s := by
  have hstop : s.status ≠ .running ∧ s.status ≠ .trapped := by
    obtain h | h := hfinal <;> simp [h]
  cases e with
  | load image => exact absurd rfl (he image)
  | step => simp only [deliver, step_of_stopped hstop.1]
  | resume => exact resume_of_not_trapped hstop.2

/-- Settles O12, by induction on the events. -/
theorem faultAndHaltAreFinal : Obligations.FaultAndHaltAreFinal := by
  intro s events hfinal hloads
  induction events with
  | nil => rfl
  | cons e events ih =>
    have hfirst : deliver s e = s :=
      deliver_final hfinal fun image he => hloads image (he ▸ List.mem_cons_self)
    have hrest : deliverAll s events = s := ih fun image hmem => hloads image (List.mem_cons_of_mem e hmem)
    calc deliverAll s (e :: events)
        = deliverAll (deliver s e) events := rfl
      _ = s := by rw [hfirst, hrest]

end Sys2Proof.Machine
end

/-! ## A fetch beyond the store

No encoding begins another one, so bytes that are an instruction's encoding cut short are no shorter instruction, and
what the decoder can answer to them is only that a byte is missing. -/

section
namespace Sys2Proof

/-- An encoding that begins another one is that one: decoding reads both from the same bytes (rules R80, R89). -/
theorem eq_of_encode_prefix {o : OpcodeMap} {i j : Instr} (ho : o.toList.Nodup) (hi : i.wellFormed = true)
    (hj : j.wellFormed = true) (h : encode o j <+: encode o i) : j = i := by
  obtain ⟨rest, hrest⟩ := h
  have hdecode := Machine.encodeThenDecodeIsIdentity o i [] ho hi
  rw [List.append_nil, ← hrest, Machine.encodeThenDecodeIsIdentity o j rest ho hj] at hdecode
  exact Except.ok.inj hdecode

section
variable {fetch : Nat → Option Byte} {fuel n : Nat} {o : OpcodeMap} {i : Instr}

/-- Of two byte strings that stand at one place the shorter begins the longer. -/
theorem BytesAt.prefix_of_length_le {k : Nat} {bs cs : List Byte} (hbs : BytesAt fetch k bs)
    (hcs : BytesAt fetch k cs) (h : bs.length ≤ cs.length) : bs <+: cs := by
  rw [List.prefix_iff_getElem?]
  intro j hj
  rw [List.getElem?_eq_getElem (Nat.lt_of_lt_of_le hj h), ← hcs j, hbs j hj]

/-- Bytes that stand before a missing byte end before it. -/
theorem BytesAt.length_le {bs : List Byte} (h : BytesAt fetch 0 bs) (hend : fetch n = none) :
    bs.length ≤ n := by
  by_contra hlong
  have hbyte := h n (Nat.lt_of_not_le hlong)
  rw [Nat.zero_add, hend] at hbyte
  exact absurd hbyte (by simp)

/-- The decoder's other error comes from an opcode byte that is there (rule R91). -/
theorem decodeFrom_error_unknownOpcode (h : decodeFrom o fetch fuel = .error .unknownOpcode) :
    ∃ b, fetch 0 = some b ∧ o.lookup b = none := by
  cases hop : fetch 0 with
  | none => simp [decodeFrom, hop] at h
  | some b =>
    cases hm : o.lookup b with
    | none => exact ⟨b, rfl, hm⟩
    | some m => cases hj : decodeOperands fetch fuel m <;> simp [decodeFrom, hop, hm, hj] at h

theorem decodeFrom_truncated (ho : o.toList.Nodup) (hwf : i.wellFormed = true) (hcut : n < i.length)
    (h : BytesAt fetch 0 ((encode o i).take n)) (hend : fetch n = none) :
    decodeFrom o fetch fuel = .error .truncated := by
  have hlen : ((encode o i).take n).length = n := by
    rw [List.length_take, encode_length, Nat.min_eq_left hcut.le]
  cases hdecode : decodeFrom o fetch fuel with
  | ok j =>
    obtain ⟨hjwf, hj⟩ := decodeFrom_ok hdecode
    have hshort : (encode o j).length ≤ n := hj.length_le hend
    have hprefix := (hj.prefix_of_length_le h (by rwa [hlen])).trans (List.take_prefix n _)
    rw [eq_of_encode_prefix ho hwf hjwf hprefix, encode_length] at hshort
    omega
  | error e =>
    cases e with
    | truncated => rfl
    | unknownOpcode =>
      obtain ⟨b, hb, hlookup⟩ := decodeFrom_error_unknownOpcode hdecode
      cases n with
      | zero => simp [hb] at hend
      | succ n =>
        have hop : fetch 0 = some (o.code i.mnemonic) := h 0 (by rw [hlen]; exact n.succ_pos)
        obtain rfl : o.code i.mnemonic = b := Option.some.inj (hop.symm.trans hb)
        rw [lookup_code ho] at hlookup
        exact absurd hlookup (by simp)

end

namespace Machine

/-- Settles O8: the first missing byte is the opcode byte, or the byte of the instruction that `I` has no room for. -/
theorem fetchBeyondTheStoreRaisesOutOfBounds : Obligations.FetchBeyondTheStoreRaisesOutOfBounds := by
  constructor
  · intro s hrun hbeyond
    have hend : fetchByte s 0 = none := fetchByte_eq_none.mpr (by rwa [BitVec.add_zero])
    have hfetch : fetchInstr s = .error .outOfBounds := by simp only [fetchInstr, decodeFrom, hend, decodeFault]
    exact step_of_fetchInstr_error hrun hfetch
  · intro s i hcfg hrun hwf hin hcut hencoded
    have hbytes := bytesAt_fetchByte hcfg (n := s.cfg.istoreSize - s.pc.toNat) (by omega)
    rw [hencoded] at hbytes
    have hend : fetchByte s (s.cfg.istoreSize - s.pc.toNat) = none := by
      have hsize : s.cfg.istoreSize < 2 ^ 63 := capacity_lt hcfg .istore
      rw [fetchByte_eq_none, BitVec.toNat_add, BitVec.toNat_ofNat]
      omega
    have hdecode := decodeFrom_truncated (fuel := s.cfg.istoreSize) (opcodes_nodup hcfg) hwf (by omega) hbytes hend
    have hfetch : fetchInstr s = .error .outOfBounds := by rw [fetchInstr, hdecode]; rfl
    exact step_of_fetchInstr_error hrun hfetch

end Machine
end Sys2Proof
end

/-! ## Which instruction raises which fault

An instruction is a sequence of checks and operations, and the first that fails decides the fault. First the kinds an
instruction can raise at all, by a rule for each operation and one for their sequence; then the states in which each
fault is raised. -/

section
namespace Sys2Proof.Machine

/-- `x` raises no kind outside `ks`, and what it answers, if it answers, has the property `P`. -/
def EndsIn {α : Type} (ks : List ErrorKind) (P : α → Prop) : Except ErrorKind α → Prop
  | .ok a => P a
  | .error k => k ∈ ks

/-- Executing an instruction in `s`, which is not Illegal, can make it Illegal by a kind in `ks` only. -/
def RaisesWithin (ks : List ErrorKind) (s : State) (run : Host.Outcome State Fault Refusal) : Prop :=
  s.status ≠ .illegal → ∀ t, run = .next t → t.status = .illegal → ∃ k ∈ ks, t.err = some k

section
variable {α β : Type} {ks : List ErrorKind} {s : State} {status : Status}

theorem EndsIn.bind {P : α → Prop} {Q : β → Prop} {x : Except ErrorKind α} {f : α → Except ErrorKind β}
    (hx : EndsIn ks P x) (hf : ∀ a, P a → EndsIn ks Q (f a)) : EndsIn ks Q (x >>= f) := by
  cases x with
  | ok a => exact hf a hx
  | error k => exact hx

/-- An instruction that keeps the status where it does not fault raises what its operations raise. -/
theorem raisesWithin_settle {r : Except ErrorKind State} (hr : EndsIn ks (·.status = s.status) r) :
    RaisesWithin ks s (settle s r) := by
  intro hs t h ht
  obtain rfl | ⟨k, rfl, rfl⟩ := settle_next h
  · exact absurd (hr.symm.trans ht) hs
  · exact ⟨k, hr, rfl⟩

/-- An instruction that always completes, as HALT and ECALL do, raises nothing (rules R200, R201). -/
theorem raisesWithin_of_next {u : State} (hu : u.status ≠ .illegal) : RaisesWithin [] s (.next u) := by
  intro _ t h ht
  cases h
  exact absurd ht hu

theorem require_endsIn {c : Bool} {k : ErrorKind} (hk : k ∈ ks) : EndsIn ks (fun _ => True) (require c k) := by
  cases c
  · exact hk
  · trivial

theorem decodeDescr_endsIn {d : Byte} (hk : .invalidDescriptor ∈ ks) :
    EndsIn ks (fun _ => True) (decodeDescr d) := by
  unfold decodeDescr
  split
  · trivial
  · exact hk

theorem decodePair_endsIn {d1 d2 : Byte} (hk : .invalidDescriptor ∈ ks) :
    EndsIn ks (fun _ => True) (decodePair d1 d2) :=
  (decodeDescr_endsIn hk).bind fun _ _ => (decodeDescr_endsIn hk).bind fun _ _ => trivial

theorem decodeReturn_endsIn {d : Byte} (hk : .invalidDescriptor ∈ ks) :
    EndsIn ks (fun _ => True) (decodeReturn d) := by
  obtain ⟨_, h⟩ | ⟨_, h⟩ | ⟨_, _, h⟩ := decodeReturn_cases d <;> rw [h]
  · trivial
  · trivial
  · exact hk

section
variable (hk : .outOfBounds ∈ ks)
include hk

theorem memRead_endsIn {x : Space} {a : Word} {n : Nat} : EndsIn ks (fun _ => True) (memRead x a n s) := by
  unfold memRead
  split
  · trivial
  · exact hk

variable (hs : s.status = status)
include hs

theorem storeBytes_endsIn {x : Space} {a : Word} {bs : List Byte} :
    EndsIn ks (·.status = status) (storeBytes x a bs s) := by
  unfold storeBytes
  split
  · cases x <;> exact hs
  · exact hk

theorem popRaw_endsIn {n : Nat} : EndsIn ks (·.2.status = status) (popRaw n s) :=
  (require_endsIn hk).bind fun _ _ => (memRead_endsIn hk).bind fun _ _ => hs

theorem popValue_endsIn {t : Descr} : EndsIn ks (·.2.status = status) (popValue t s) := by
  unfold popValue
  split
  · exact (popRaw_endsIn hk hs).bind fun _ hs1 => (memRead_endsIn hk).bind fun _ _ => hs1
  · exact popRaw_endsIn hk hs

theorem popOperands_endsIn {t1 t2 : Descr} : EndsIn ks (·.2.2.status = status) (popOperands t1 t2 s) :=
  (popValue_endsIn hk hs).bind fun _ hs1 => (popValue_endsIn hk hs1).bind fun _ hs2 => hs2

theorem pushValue_endsIn {w v : Nat} : EndsIn ks (·.status = status) (pushValue w v s) :=
  (storeBytes_endsIn hk hs).bind fun _ hs1 => hs1

theorem returnStack_endsIn {t : Option Descr} {a : Nat} : EndsIn ks (·.status = status) (returnStack t a s) := by
  cases t with
  | none => exact hs
  | some t =>
    exact (popValue_endsIn hk hs).bind fun _ hs1 =>
      pushValue_endsIn hk (s := State.withSp _ (BitVec.ofNat 64 a + s.fp)) hs1

end
end

section
variable (d d1 d2 : Byte) (s : State)

theorem arithmetic_raisesWithin (f : Nat → Nat → Nat → Nat) :
    RaisesWithin [.outOfBounds, .invalidDescriptor, .invalidInstruction] s (settle s (arithmetic f d1 d2 s)) :=
  raisesWithin_settle <|
    (decodePair_endsIn (by decide)).bind fun _ _ =>
    (require_endsIn (by decide)).bind fun _ _ =>
    (popOperands_endsIn (by decide) rfl).bind fun _ hs1 =>
    (pushValue_endsIn (by decide) hs1).bind fun _ hs2 => hs2

theorem comparison_raisesWithin (rel : Nat → Bool → Nat → Nat → Bool) :
    RaisesWithin [.outOfBounds, .invalidDescriptor, .invalidInstruction] s (settle s (comparison rel d1 d2 s)) :=
  raisesWithin_settle <|
    (decodePair_endsIn (by decide)).bind fun _ _ =>
    (require_endsIn (by decide)).bind fun _ _ =>
    (popOperands_endsIn (by decide) rfl).bind fun _ hs1 =>
    (pushValue_endsIn (by decide) hs1).bind fun _ hs2 => hs2

theorem shift_raisesWithin (f : Nat → Bool → Nat → Nat → Nat) :
    RaisesWithin [.outOfBounds, .invalidDescriptor, .negativeShiftCount] s (settle s (shift f d1 d2 s)) :=
  raisesWithin_settle <|
    (decodePair_endsIn (by decide)).bind fun _ _ =>
    (popOperands_endsIn (by decide) rfl).bind fun _ hs1 =>
    (require_endsIn (by decide)).bind fun _ _ =>
    (pushValue_endsIn (by decide) hs1).bind fun _ hs2 => hs2

theorem execPush_raisesWithin (imm : Nat) :
    RaisesWithin [.outOfBounds, .invalidDescriptor] s (execPush d imm s) :=
  raisesWithin_settle <|
    (decodeDescr_endsIn (by decide)).bind fun _ _ =>
    (pushValue_endsIn (by decide) rfl).bind fun _ hs1 => hs1

theorem execPop_raisesWithin :
    RaisesWithin [.outOfBounds, .invalidDescriptor, .invalidInstruction] s (execPop d s) :=
  raisesWithin_settle <|
    (decodeDescr_endsIn (by decide)).bind fun _ _ =>
    (require_endsIn (by decide)).bind fun _ _ =>
    (popRaw_endsIn (by decide) rfl).bind fun _ hs1 => hs1

theorem execAssign_raisesWithin :
    RaisesWithin [.outOfBounds, .invalidDescriptor, .invalidInstruction] s (execAssign d1 d2 s) :=
  raisesWithin_settle <|
    (decodePair_endsIn (by decide)).bind fun _ _ =>
    (require_endsIn (by decide)).bind fun _ _ =>
    (require_endsIn (by decide)).bind fun _ _ =>
    (popValue_endsIn (by decide) rfl).bind fun _ hs1 =>
    (popRaw_endsIn (by decide) hs1).bind fun _ hs2 =>
    (storeBytes_endsIn (by decide) hs2).bind fun _ hs3 => hs3

theorem execConvert_raisesWithin :
    RaisesWithin [.outOfBounds, .invalidDescriptor, .invalidInstruction] s (execConvert d1 d2 s) :=
  raisesWithin_settle <|
    (decodePair_endsIn (by decide)).bind fun _ _ =>
    (require_endsIn (by decide)).bind fun _ _ =>
    (popValue_endsIn (by decide) rfl).bind fun _ hs1 =>
    (pushValue_endsIn (by decide) hs1).bind fun _ hs2 => hs2

theorem execJump_raisesWithin : RaisesWithin [.outOfBounds] s (execJump s) :=
  raisesWithin_settle <| (popRaw_endsIn (by decide) rfl).bind fun _ hs1 => hs1

theorem execBranch_raisesWithin : RaisesWithin [.outOfBounds, .invalidDescriptor] s (execBranch d s) :=
  raisesWithin_settle <|
    (decodeDescr_endsIn (by decide)).bind fun _ _ =>
    (popRaw_endsIn (by decide) rfl).bind fun _ hs1 =>
    (popValue_endsIn (by decide) hs1).bind fun c hs2 => by
      change State.status (if c.1 = 0 then _ else _) = _
      split <;> exact hs2

theorem execCall_raisesWithin : RaisesWithin [.outOfBounds] s (execCall s) :=
  raisesWithin_settle <|
    (popRaw_endsIn (by decide) rfl).bind fun _ hs1 =>
    (pushValue_endsIn (by decide) hs1).bind fun _ hs2 =>
    (pushValue_endsIn (by decide) hs2).bind fun _ hs3 => hs3

theorem execReturn_raisesWithin : RaisesWithin [.outOfBounds, .invalidDescriptor] s (execReturn d s) :=
  raisesWithin_settle <|
    (decodeReturn_endsIn (by decide)).bind fun _ _ =>
    (popRaw_endsIn (by decide) rfl).bind fun _ hs1 =>
    (memRead_endsIn (by decide)).bind fun _ _ =>
    (memRead_endsIn (by decide)).bind fun _ _ =>
    (returnStack_endsIn (by decide) hs1).bind fun _ hs2 => hs2

theorem execStoreString_raisesWithin (literal : List Byte) :
    RaisesWithin [.outOfBounds] s (execStoreString literal s) :=
  raisesWithin_settle <|
    (popValue_endsIn (by decide) rfl).bind fun _ hs1 =>
    (require_endsIn (by decide)).bind fun _ _ =>
    (storeBytes_endsIn (by decide) hs1).bind fun _ hs2 => hs2

theorem unimplemented_raisesWithin : RaisesWithin [.unimplementedInstruction] s (unimplemented s) :=
  raisesWithin_settle (by decide : ErrorKind.unimplementedInstruction ∈ [.unimplementedInstruction])

end

/-- The table of rule R238, row by row. -/
theorem exec_raisesWithin (i : Instr) (s : State) : RaisesWithin (kindsOf i) s (exec i s) := by
  cases i with
  | halt | ecall => exact raisesWithin_of_next (by simp)
  | push d imm => exact execPush_raisesWithin d s imm
  | pop d => exact execPop_raisesWithin d s
  | assign d1 d2 => exact execAssign_raisesWithin d1 d2 s
  | add d1 d2 | sub d1 d2 | and d1 d2 | or d1 d2 | xor d1 d2 | mul d1 d2 =>
    exact arithmetic_raisesWithin d1 d2 s _
  | shl d1 d2 | shr d1 d2 => exact shift_raisesWithin d1 d2 s _
  | eql d1 d2 | neq d1 d2 | lss d1 d2 | gtr d1 d2 | leq d1 d2 | geq d1 d2 =>
    exact comparison_raisesWithin d1 d2 s _
  | convert d1 d2 => exact execConvert_raisesWithin d1 d2 s
  | jump => exact execJump_raisesWithin s
  | branch d => exact execBranch_raisesWithin d s
  | call => exact execCall_raisesWithin s
  | ret d => exact execReturn_raisesWithin d s
  | storeString literal => exact execStoreString_raisesWithin s literal
  | load | store | quo | rem | jumpNoflag => exact unimplemented_raisesWithin s

/-- Settles O13. -/
theorem instructionsRaiseOnlyTheTabledKinds : Obligations.InstructionsRaiseOnlyTheTabledKinds :=
  fun i s t hs h ht => exec_raisesWithin i s hs t h ht

end Sys2Proof.Machine
end

/-! ## When each fault is raised

Every check of an instruction comes before anything that a later check reads, so a fault is decided by the first
check that fails. What an instruction needs to complete stands with its meaning (`AssignReady` and the like); here
each of those needs is missing. -/

section
namespace Sys2Proof.Machine

/-- The first operation of an instruction decides its fault. -/
theorem settle_bind_error {α : Type} {s : State} {x : Except ErrorKind α} {f : α → Except ErrorKind State}
    {k : ErrorKind} (h : x = .error k) : settle s (x >>= f) = .next (takeFault k s) := by
  rw [h]
  rfl

theorem execReturn_invalid {d : Byte} {s : State} (h0 : d ≠ 0) (h : validDescr d = false) :
    execReturn d s = .next (takeFault .invalidDescriptor s) := by
  obtain ⟨rfl, _⟩ | ⟨hvalid, _⟩ | ⟨_, _, hdecode⟩ := decodeReturn_cases d
  · exact absurd rfl h0
  · exact absurd hvalid (by simp [h])
  · exact settle_bind_error hdecode

/-- Settles O14: all but RETURN begin with the decoding of their descriptors. -/
theorem invalidDescriptorsAreRaisedFirst : Obligations.InvalidDescriptorsAreRaisedFirst := by
  refine fun s => ⟨fun d h => ?_, fun d1 d2 h => ?_⟩
  · have hdecode : decodeDescr d = .error .invalidDescriptor := decodeDescr_invalid (by simp [h])
    exact ⟨fun _ => settle_bind_error hdecode, settle_bind_error hdecode, settle_bind_error hdecode,
      fun h0 => execReturn_invalid h0 h⟩
  · have hdecode : decodePair d1 d2 = .error .invalidDescriptor := decodePair_invalid fun ⟨h1, h2⟩ => by
      simp [h1, h2] at h
    have hfault {f : Descr × Descr → Except ErrorKind State} :
        settle s (decodePair d1 d2 >>= f) = .next (takeFault .invalidDescriptor s) := settle_bind_error hdecode
    exact ⟨hfault, hfault, hfault, hfault, hfault, hfault, hfault, hfault, hfault, hfault, hfault, hfault, hfault,
      hfault, hfault, hfault⟩

section
variable {d d1 d2 : Byte} {s : State} {k : ErrorKind}

/-- What ADD to MUL and EQL to GEQ do before they compute: the operands `a` and `b` of one type, and the state after
both pops (rules R140, R160). -/
def matchingOperands (d1 d2 : Byte) (s : State) : Except ErrorKind (Nat × Nat × State) := do
  let (t1, t2) ← decodePair d1 d2
  require (sameType t1 t2) .invalidInstruction
  popOperands t1 t2 s

theorem arithmetic_eq_matchingOperands_bind (f : Nat → Nat → Nat → Nat) :
    arithmetic f d1 d2 s = (matchingOperands d1 d2 s >>= fun (a, b, s1) => do
      let s2 ← pushValue (descrSize d1) (f (descrSize d1) a b) s1
      pure (s2.advance 3)) := by
  by_cases hvalid : validDescr d1 = true ∧ validDescr d2 = true
  · simp only [arithmetic, matchingOperands, decodePair_valid hvalid.1 hvalid.2, ok_bind, bind_assoc,
      descrFields_size]
  · simp only [arithmetic, matchingOperands, decodePair_invalid hvalid, error_bind]

theorem comparison_eq_matchingOperands_bind (rel : Nat → Bool → Nat → Nat → Bool) :
    comparison rel d1 d2 s = (matchingOperands d1 d2 s >>= fun (a, b, s1) => do
      let s2 ← pushValue 1 (truthByte (rel (descrSize d1) (descrSigned d1) a b)) s1
      pure (s2.advance 3)) := by
  by_cases hvalid : validDescr d1 = true ∧ validDescr d2 = true
  · simp only [comparison, matchingOperands, decodePair_valid hvalid.1 hvalid.2, ok_bind, bind_assoc,
      descrFields_size, descrFields_signed]
  · simp only [comparison, matchingOperands, decodePair_invalid hvalid, error_bind]

/-- The fault of the operands is the fault of each of the twelve instructions. -/
theorem matchingOperands_raise (h : matchingOperands d1 d2 s = .error k) :
    Raises (.add d1 d2) s k ∧ Raises (.sub d1 d2) s k ∧ Raises (.and d1 d2) s k ∧ Raises (.or d1 d2) s k ∧
    Raises (.xor d1 d2) s k ∧ Raises (.mul d1 d2) s k ∧ Raises (.eql d1 d2) s k ∧ Raises (.neq d1 d2) s k ∧
    Raises (.lss d1 d2) s k ∧ Raises (.gtr d1 d2) s k ∧ Raises (.leq d1 d2) s k ∧ Raises (.geq d1 d2) s k := by
  have harith (f) : settle s (arithmetic f d1 d2 s) = .next (takeFault k s) := by
    rw [arithmetic_eq_matchingOperands_bind]
    exact settle_bind_error h
  have hcomp (rel) : settle s (comparison rel d1 d2 s) = .next (takeFault k s) := by
    rw [comparison_eq_matchingOperands_bind]
    exact settle_bind_error h
  exact ⟨harith _, harith _, harith _, harith _, harith _, harith _, hcomp _, hcomp _, hcomp _, hcomp _, hcomp _,
    hcomp _⟩

theorem execPop_indirect (hvalid : validDescr d = true) (h : descrIndirect d = true) :
    execPop d s = .next (takeFault .invalidInstruction s) := by
  simp only [execPop, decodeDescr_valid hvalid, ok_bind, descrFields_indirect, h, Bool.not_true, require_false,
    error_bind, settle_error]

theorem execPop_notReady (hvalid : validDescr d = true) (hdirect : descrIndirect d = false)
    (h : ¬(descrSize d ≤ s.sp.toNat ∧ s.sp.toNat ≤ s.cfg.stackSize)) :
    execPop d s = .next (takeFault .outOfBounds s) := by
  simp only [execPop, decodeDescr_valid hvalid, ok_bind, descrFields_indirect, hdirect, Bool.not_false, require_true,
    descrFields_size, popRaw_notReady h, error_bind, settle_error]

theorem execPush_over {imm : Nat} (hvalid : validDescr d = true)
    (h : s.cfg.stackSize < s.sp.toNat + descrSize d) : execPush d imm s = .next (takeFault .outOfBounds s) := by
  simp only [execPush, decodeDescr_valid hvalid, ok_bind, descrFields_size, pushValue_over h, error_bind,
    settle_error]

theorem execJump_notReady (h : ¬OffsetReady s s.sp) : execJump s = .next (takeFault .outOfBounds s) :=
  settle_bind_error (popOffset_notReady h)

theorem execBranch_notReady (hvalid : validDescr d = true)
    (h : ¬(OffsetReady s s.sp ∧ OperandReady (descrFields d) s (s.sp - 8))) :
    execBranch d s = .next (takeFault .outOfBounds s) := by
  by_cases hoff : OffsetReady s s.sp
  · have hcond : popValue (descrFields d) (s.withSp (s.sp - 8)) = .error .outOfBounds :=
      popValue_notReady fun hcond => h ⟨hoff, hcond⟩
    simp only [execBranch, decodeDescr_valid hvalid, popOffset_ready hoff, hcond, ok_bind, error_bind, settle_error]
  · simp only [execBranch, decodeDescr_valid hvalid, popOffset_notReady hoff, ok_bind, error_bind, settle_error]

/-- The first linkage word of CALL goes where the offset was, so it is the second one that has no room. -/
theorem execCall_over (h : s.cfg.stackSize < s.sp.toNat + 8) :
    execCall s = .next (takeFault .outOfBounds s) := by
  by_cases hoff : OffsetReady s s.sp
  · have hlow : (s.sp - 8).toNat = s.sp.toNat - 8 := toNat_sub_ofNat hoff.1
    have hback : s.sp - 8 + BitVec.ofNat 64 8 = s.sp := BitVec.sub_add_cancel s.sp 8
    have hfirst := pushValue_fits (w := 8) (v := s.fp.toNat) (s := s.withSp (s.sp - 8))
      (by simp only [withSp_sp, withSp_cfg, hlow]; omega)
    simp only [withSp_sp, withSp_stack, hback] at hfirst
    have hsecond := pushValue_over (w := 8) (v := (s.pc + 1).toNat)
      (s := ((s.withSp (s.sp - 8)).withStack
        (s.stack.writeBytes (s.sp - 8).toNat (leBytes 8 s.fp.toNat))).withSp s.sp) h
    simp only [execCall, popOffset_ready hoff, hfirst, hsecond, ok_bind, error_bind, settle_error]
  · exact settle_bind_error (popOffset_notReady hoff)

theorem execConvert_indirect (hvalid1 : validDescr d1 = true) (hvalid2 : validDescr d2 = true)
    (h : descrIndirect d2 = true) : execConvert d1 d2 s = .next (takeFault .invalidInstruction s) := by
  simp only [execConvert, decodePair_valid hvalid1 hvalid2, ok_bind, descrFields_indirect, h, Bool.not_true,
    require_false, error_bind, settle_error]

theorem execConvert_notReady (hvalid1 : validDescr d1 = true) (hvalid2 : validDescr d2 = true)
    (hdirect : descrIndirect d2 = false)
    (h : ¬OperandReady (descrFields d1) s s.sp ∨
      s.cfg.stackSize < (belowOperand (descrFields d1) s.sp).toNat + descrSize d2) :
    execConvert d1 d2 s = .next (takeFault .outOfBounds s) := by
  by_cases hready : OperandReady (descrFields d1) s s.sp
  · have hpush := fun v => pushValue_over (v := v) (s := s.withSp (belowOperand (descrFields d1) s.sp))
      (h.resolve_left (not_not_intro hready))
    simp only [execConvert, decodePair_valid hvalid1 hvalid2, ok_bind, descrFields_indirect, hdirect, Bool.not_false,
      require_true, popValue_ready hready, descrFields_size, hpush, error_bind, settle_error]
  · simp only [execConvert, decodePair_valid hvalid1 hvalid2, ok_bind, descrFields_indirect, hdirect, Bool.not_false,
      require_true, popValue_notReady hready, error_bind, settle_error]

theorem execAssign_misused (hvalid1 : validDescr d1 = true) (hvalid2 : validDescr d2 = true)
    (h : sameType (descrFields d1) (descrFields d2) = false ∨ descrIndirect d1 = false) :
    execAssign d1 d2 s = .next (takeFault .invalidInstruction s) := by
  cases hsame : sameType (descrFields d1) (descrFields d2) with
  | false =>
    simp only [execAssign, decodePair_valid hvalid1 hvalid2, ok_bind, hsame, require_false, error_bind, settle_error]
  | true =>
    have hdirect : descrIndirect d1 = false := h.resolve_left (by simp [hsame])
    simp only [execAssign, decodePair_valid hvalid1 hvalid2, ok_bind, hsame, require_true, descrFields_indirect,
      hdirect, require_false, error_bind, settle_error]

/-- ASSIGN whose static requirements are met needs its payload, its offset and its destination, in this order. -/
theorem execAssign_notReady (hvalid1 : validDescr d1 = true) (hvalid2 : validDescr d2 = true)
    (hsame : sameType (descrFields d1) (descrFields d2) = true) (hindirect : descrIndirect d1 = true)
    (h : ¬AssignReady d1 d2 s) : execAssign d1 d2 s = .next (takeFault .outOfBounds s) := by
  simp only [execAssign, decodePair_valid hvalid1 hvalid2, ok_bind, hsame, require_true, descrFields_indirect,
    hindirect, descrFields_size]
  by_cases hpayload : OperandReady (descrFields d2) s s.sp
  · by_cases hoffset : OffsetReady s (belowOperand (descrFields d2) s.sp)
    · have hpop : popRaw 8 (s.withSp (belowOperand (descrFields d2) s.sp)) =
          .ok (offsetValue s (belowOperand (descrFields d2) s.sp),
            s.withSp (belowOperand (descrFields d2) s.sp - 8)) := popOffset_ready hoffset
      have hwrite := memWrite_outside (x := .stack) (v := rightValue d2 s)
        (s := s.withSp (belowOperand (descrFields d2) s.sp - 8))
        fun hfits => h ⟨hvalid1, hvalid2, hsame, hindirect, hpayload, hoffset, hfits⟩
      rw [assignAddr, rightValue] at hwrite
      simp only [popValue_ready hpayload, ok_bind, hpop, frameAddr_withSp, hwrite, error_bind, settle_error]
    · have hpop : popRaw 8 (s.withSp (belowOperand (descrFields d2) s.sp)) = .error .outOfBounds :=
        popOffset_notReady hoffset
      simp only [popValue_ready hpayload, ok_bind, hpop, error_bind, settle_error]
  · exact settle_bind_error (popValue_notReady hpayload)

section
variable (hvalid1 : validDescr d1 = true) (hvalid2 : validDescr d2 = true)
include hvalid1 hvalid2

theorem matchingOperands_mismatch (h : sameType (descrFields d1) (descrFields d2) = false) :
    matchingOperands d1 d2 s = .error .invalidInstruction := by
  simp only [matchingOperands, decodePair_valid hvalid1 hvalid2, ok_bind, h, require_false, error_bind]

/-- Operands that are not both ready are popped with a fault (rule R119). -/
theorem popOperands_notPairReady (h : ¬PairReady d1 d2 s) :
    popOperands (descrFields d1) (descrFields d2) s = .error .outOfBounds :=
  popOperands_notReady fun ⟨hright, hleft⟩ => h ⟨hvalid1, hvalid2, hright, hleft⟩

theorem matchingOperands_notReady (hsame : sameType (descrFields d1) (descrFields d2) = true)
    (h : ¬PairReady d1 d2 s) : matchingOperands d1 d2 s = .error .outOfBounds := by
  simp only [matchingOperands, decodePair_valid hvalid1 hvalid2, ok_bind, hsame, require_true,
    popOperands_notPairReady hvalid1 hvalid2 h]

theorem shift_notReady {f : Nat → Bool → Nat → Nat → Nat} (h : ¬PairReady d1 d2 s) :
    shift f d1 d2 s = .error .outOfBounds := by
  simp only [shift, decodePair_valid hvalid1 hvalid2, ok_bind, popOperands_notPairReady hvalid1 hvalid2 h,
    error_bind]

end
end

/-- Settles O15. -/
theorem misusedDescriptorsRaiseInvalidInstruction : Obligations.MisusedDescriptorsRaiseInvalidInstruction :=
  fun _ _ _ hvalid1 hvalid2 =>
    ⟨fun hmismatch => ⟨execAssign_misused hvalid1 hvalid2 (.inl hmismatch),
        matchingOperands_raise (matchingOperands_mismatch hvalid1 hvalid2 hmismatch)⟩,
      fun hdirect => execAssign_misused hvalid1 hvalid2 (.inr hdirect),
      fun hindirect => execPop_indirect hvalid1 hindirect,
      fun hindirect => execConvert_indirect hvalid1 hvalid2 hindirect⟩

/-- Settles O16. -/
theorem unreadableOperandsRaiseOutOfBounds : Obligations.UnreadableOperandsRaiseOutOfBounds := by
  intro s d1 d2 hvalid1 hvalid2 hunready
  have hshift (f) : settle s (shift f d1 d2 s) = .next (takeFault .outOfBounds s) := by
    rw [shift_notReady hvalid1 hvalid2 hunready, settle_error]
  exact ⟨fun hsame => matchingOperands_raise (matchingOperands_notReady hvalid1 hvalid2 hsame hunready),
    hshift _, hshift _⟩

/-- Settles O17, clause by clause. -/
theorem stackUnderflowAndOverflowRaiseOutOfBounds : Obligations.StackUnderflowAndOverflowRaiseOutOfBounds := by
  intro s
  refine ⟨fun d imm hvalid hover => execPush_over hvalid hover,
    fun d hvalid hdirect hout => execPop_notReady hvalid hdirect (by omega),
    fun hoff => ⟨execJump_notReady hoff, settle_bind_error (popOffset_notReady hoff),
      execReturn_notReady (t := none) rfl fun h => hoff h.1,
      fun d hvalid => ⟨execBranch_notReady hvalid fun h => hoff h.1,
        execReturn_notReady (decodeReturn_valid hvalid) fun h => hoff h.1⟩⟩,
    fun literal hslot => execStoreString_notReady fun h => hslot h.address,
    fun d hvalid hcond => execBranch_notReady hvalid fun h => hcond h.2,
    execCall_over,
    fun d1 d2 hvalid1 hvalid2 hdirect hout => execConvert_notReady hvalid1 hvalid2 hdirect hout,
    fun d1 d2 hvalid1 hvalid2 hsame hindirect hout =>
      execAssign_notReady hvalid1 hvalid2 hsame hindirect fun h => ?_⟩
  obtain hpayload | hoffset | hfits := hout
  · exact hpayload h.payload
  · exact hoffset h.offset
  · exact Nat.not_le_of_lt hfits h.fits

end Sys2Proof.Machine
end
